-- ==== Sys2Proof/Word.lean ====
section
/-! DEFINITION. The word types of the block (00_scope.md R8, R13; 10_state.md). -/

namespace Sys2Proof

/-- A 16-bit word on a port: a command word, `EINFO`, `T`, a status word (R8 `CW`, R13). -/
abbrev Word := BitVec 16

/-- A sample code: a 16-bit two's-complement integer standing for `code / 2^14` (R13, R134). -/
abbrev Sample := BitVec 16

/-- An 8-bit character code, the operand of `PUSH` (R8 `CHW`, R85). -/
abbrev CharCode := BitVec 8

/-- A 3-bit scheme code (R24, R83). -/
abbrev SchemeCode := BitVec 3

/-- One cell of the bit buffer (R39). -/
abbrev Bit := BitVec 1

end Sys2Proof
end

