-- ==== Sys2Proof/Syntax.lean ====
section
/-! DEFINITION. The six commands of the block, one constructor per row of spec/opcode_table.json (30_encoding.md R82). -/

namespace Sys2Proof

/-- A decoded command. Operands are the immediates as the word carries them (R83 to R86). -/
inductive Instr where
  /-- `NOP`: no operation (R175). -/
  | nop
  /-- `CLR`: empty the bit buffer and leave the error state (R176). -/
  | clr
  /-- `SETSCH s`: select the modulation scheme (R173). -/
  | setsch (s : SchemeCode)
  /-- `SETN n`: set the samples-per-symbol count (R174). -/
  | setn (n : BitVec 8)
  /-- `PUSH c`: append one character of the bit string (R101). -/
  | push (c : CharCode)
  /-- `RUN`: validate the buffered bit sequence and start the transmission (R151). -/
  | run
deriving DecidableEq, Repr

end Sys2Proof
end

