-- ==== Sys2Proof/WellFormed.lean ====
section
/-! DEFINITION. Which terms of `Instr` are commands of the block: every one but `SETN 0` (30_encoding.md R84, R89). -/

namespace Sys2Proof

/-- `SETN` counts from 1 to 255 (R84); `SETN 0` is a reserved encoding (R89). All 8 scheme codes (R83) and all 256
character codes (R85) are legal operands. -/
def Instr.wellFormed : Instr → Bool
  | .nop => true
  | .clr => true
  | .setsch _ => true
  | .setn n => n != 0
  | .push _ => true
  | .run => true

end Sys2Proof
end

