-- ==== Sys2Proof/Decode.lean ====
section
/-! DEFINITION. The decode function of 30_encoding.md R94, total on all 16-bit words, and the encoder written from the same
field layout (R81, R82). Decoding depends on no state (R91). -/

namespace Sys2Proof

/-- Why a word is illegal. All of them raise the same `IllegalCommandError` (R205); the names are the decoder's own. -/
inductive RejectReason where
  /-- `cmd[11:8] ≠ 0` (R88). -/
  | reservedField
  /-- `op` is 6 to 15 (R87). -/
  | reservedOpcode
  /-- A must-be-zero bit of `imm8` is set: `NOP`, `CLR`, `RUN`, or `SETSCH` with `cmd[7:3] ≠ 0` (R88). -/
  | operandBits
  /-- `SETN 0`, the word `0x3000` (R89). -/
  | zeroCount
deriving DecidableEq, Repr

/-- What `decode` answers (R94): a command, or `Illegal(w)` with the reason. -/
inductive Decoded where
  | command (i : Instr)
  | illegal (w : Word) (why : RejectReason)
deriving DecidableEq, Repr

/-- The field `op = cmd[15:12]` (R81). -/
def opField (w : Word) : BitVec 4 := w.extractLsb' 12 4

/-- The field `rz = cmd[11:8]`, reserved, must be zero (R81). -/
def rzField (w : Word) : BitVec 4 := w.extractLsb' 8 4

/-- The field `imm8 = cmd[7:0]` (R81). -/
def immField (w : Word) : BitVec 8 := w.extractLsb' 0 8

/-- A command without an operand: `imm8` must be 0 (R86). -/
def decodePlain (w : Word) (i : Instr) : Decoded :=
  if immField w = 0 then .command i else .illegal w .operandBits

/-- `SETSCH`: the operand is `cmd[2:0]`, and `cmd[7:3]` must be 0 (R83). -/
def decodeSetsch (w : Word) : Decoded :=
  if w.extractLsb' 3 5 = 0 then .command (.setsch (w.extractLsb' 0 3)) else .illegal w .operandBits

/-- `SETN`: the operand is `cmd[7:0]`, not 0 (R84, R89). -/
def decodeSetn (w : Word) : Decoded :=
  if immField w = 0 then .illegal w .zeroCount else .command (.setn (immField w))

/-- The decode function (R94). -/
def decode (w : Word) : Decoded :=
  if rzField w ≠ 0 then .illegal w .reservedField
  else
    match (opField w).toNat with
    | 0 => decodePlain w .nop
    | 1 => decodePlain w .clr
    | 2 => decodeSetsch w
    | 3 => decodeSetn w
    | 4 => .command (.push (immField w))
    | 5 => decodePlain w .run
    | _ => .illegal w .reservedOpcode

/-- The command a word decodes to, if it is legal. -/
def Decoded.instr? : Decoded → Option Instr
  | .command i => some i
  | .illegal _ _ => none

/-- The 16-bit command word whose low `nbits` bits are those of `w`, every higher bit 0. The block stores no instruction and
its command word is presented whole (R62), so there are no bytes to lay out. -/
def tableWord (nbits w : Nat) : Word := BitVec.ofNat 16 (w % 2 ^ nbits)

/-- The command the decoder reads from a row of spec/opcode_table.json whose bits are `w`. -/
def decodeTableWord (nbits w : Nat) : Option Instr := (decode (tableWord nbits w)).instr?

/-- Opcode, reserved zeros and immediate put together (R81). -/
def formatC (op : BitVec 4) (imm : BitVec 8) : Word := op ++ (0#4 ++ imm)

/-- The word of a command (R82). -/
def encode : Instr → Word
  | .nop => formatC 0 0
  | .clr => formatC 1 0
  | .setsch s => formatC 2 (0#5 ++ s)
  | .setn n => formatC 3 n
  | .push c => formatC 4 c
  | .run => formatC 5 0

end Sys2Proof
end

