-- ==== Sys2Proof/Config.lean ====
section
/-! DEFINITION. The implementation parameters of 00_scope.md R8, fixed at their defaults (R8: a model "may fix it to the
default"; R9: constant for the life of the block), and the one free value of the model. -/

namespace Sys2Proof

/-- `MAXBITS`: capacity of the bit buffer (R8, D8). -/
def Config.maxBits : Nat := 256

/-- `NMAX`: largest samples-per-symbol count (R8, D9). -/
def Config.nMax : Nat := 255

/-- `LW`: width of `LEN`, `NSYM`, `SI` (R8). -/
abbrev Config.lw : Nat := 9

/-- `NW`: width of `NSPS`, `RI` (R8). -/
abbrev Config.nw : Nat := 8

/-- `W`: width of a sample code (R8, D10). -/
abbrev Config.w : Nat := 16

/-- `FRAC`: fraction bits of a sample code (R8, D10). -/
abbrev Config.frac : Nat := 14

/-- `ONE`: the sample code of the real number 1.0, `2^FRAC` (R8, D10). -/
def Config.one : Sample := BitVec.ofNat Config.w (2 ^ Config.frac)

/-- `TW`: width of the time index `T` (R8, D27). -/
abbrev Config.tw : Nat := 16

/-- `CH0`: the character code of the binary digit 0 (R8, D7). -/
def Config.ch0 : CharCode := 0x30

/-- `CH1`: the character code of the binary digit 1 (R8, D7). -/
def Config.ch1 : CharCode := 0x31

/-- `N_RESET`: `NSPS` after reset (R8, R50). -/
def Config.nReset : BitVec 8 := 1

/-- `SCH_RESET`: `SCH` after reset, no scheme selected (R8, R50). -/
def Config.schReset : SchemeCode := 7

/-- The four constellation constants on which the mapper's tables depend (R140): `A_OOK`, `PSK_R`, `PSK_D`, `QAM_U`. -/
structure Config.Levels where
  aOok : Sample
  pskR : Sample
  pskD : Sample
  qamU : Sample
deriving DecidableEq, Repr

/-- The default constants (R8): `A_OOK` and `PSK_R` 16384, the code `ONE` of 1.0; `PSK_D` 11585; `QAM_U` 4096. -/
def Config.levels : Config.Levels :=
  { aOok := Config.one, pskR := Config.one, pskD := 11585, qamU := 4096 }

/-- Which values of the four constants are admitted. The bounds on `A_OOK` and `PSK_R` and `3·QAM_U < 2^15` are those of R8.
That `PSK_D` is a positive sample code is DEDUCED (log entry 5). That `QAM_U` is positive is a DESIGN CHOICE (log entry 11):
R8 bounds it from above only, and R132 asks only that it is not 0. -/
abbrev Config.Levels.valid (l : Config.Levels) : Prop :=
  (0 < l.aOok.toNat ∧ l.aOok.toNat < 2 ^ 15) ∧ (0 < l.pskR.toNat ∧ l.pskR.toNat < 2 ^ 15) ∧
    (0 < l.pskD.toNat ∧ l.pskD.toNat < 2 ^ 15) ∧ (0 < l.qamU.toNat ∧ 3 * l.qamU.toNat < 2 ^ 15)

/-- The codes that R123 to R130 write with these constants, `−PSK_R`, `−PSK_D`, `±3·QAM_U` among them, are sample codes: each
integer fits in 16 bits (R13, R140). The upper bound on `QAM_U` is R8's. -/
abbrev Config.Levels.fits (l : Config.Levels) : Prop :=
  -2 ^ 15 < l.pskR.toInt ∧ -2 ^ 15 < l.pskD.toInt ∧ -2 ^ 15 < 3 * l.qamU.toInt ∧ 3 * l.qamU.toInt < 2 ^ 15

/-- FREE VALUE. What a cell of `BUF` reads as when no rule defines its content: a cell at or above `LEN`, or one that nothing
has written (R39, R75; 93 U13: "any value"). It has no body, so no proof can rest on its value. Log entry 1.
DESIGN CHOICE, safe: no rule ever reads such a cell. -/
opaque Config.undefinedBit : Nat → Bit

end Sys2Proof
end

