-- ==== Sys2Proof/Machine/State.lean ====
section
/-! DEFINITION. The state of the block as plain data: everything 10_state.md R20 lists, and the three fields that hold what
the environment will do (R11). Reset values: R50. -/

namespace Sys2Proof.Machine

/-- `STATE` (R27). The value 3 never occurs (R27, 93 U19). -/
inductive BlockState where
  | idle
  | busy
  | error
deriving DecidableEq, Repr

/-- `CAUSE` (R28): the code of the error that put the block in `ERROR`, or none. Codes 6 and 7 never occur (93 U19). -/
inductive Cause where
  | noError
  | invalidInput
  | unknownScheme
  | invalidGroupLength
  | overflow
  | illegalCommand
deriving DecidableEq, Repr

/-- `SUB` (R29). -/
inductive SubCause where
  | noSub
  | empty
  | badChar
  | notMult
deriving DecidableEq, Repr

/-- What a rule raises: `raise E(sub, info)` (R15, R206). -/
structure Trap where
  cause : Cause
  sub : SubCause
  info : Word
deriving DecidableEq, Repr

/-- A Symbol: an in-phase and a quadrature sample code (R17, R120). -/
structure Sym where
  i : Sample
  q : Sample
deriving DecidableEq, Repr

/-- One beat of the output port (R41, R153). -/
structure Beat where
  t : BitVec 16
  i : Sample
  q : Sample
  sos : Bool
  last : Bool
  cplx : Bool
deriving DecidableEq, Repr

/-- What the environment drives on the one-bit input pins at one rising edge of `clk` (R46): the reset `rst`, the host's
`cmd_valid`, the sink's `out_ready`. The word on `cmd` is the head of `State.cmds`. -/
structure EdgeInput where
  rst : Bool
  cmdValid : Bool
  outReady : Bool
deriving DecidableEq, Repr

/-- No reset, a host that offers its next word, a sink that accepts (R243: the sink of every listing of the spec). -/
def EdgeInput.live : EdgeInput := { rst := false, cmdValid := true, outReady := true }

/-- A cell of the bit buffer: its bit address and its content. The smallest addressable unit is one bit (R39, R62). -/
abbrev BitCell := Nat × Bit

/-- The bit buffer: the cells that have been written, addresses strictly rising. An address that is not listed has no value
(R50: `BUF[i]` is unspecified after reset); log entry 1. -/
abbrev Memory := List BitCell

/-- The canonical form: addresses strictly rising and inside the address space `0 .. MAXBITS − 1` (R67). An unlisted address
has no value, so no entry can equal what an unlisted address reads as. -/
abbrev Memory.wf (m : Memory) : Prop :=
  m.Pairwise (fun x y => x.1 < y.1) ∧ ∀ c ∈ m, c.1 < Config.maxBits

/-- The complete state of the block (R20), and the inputs of the coming steps (R11). -/
structure State where
  /-- `SCH`, scheme code (R24). -/
  sch : SchemeCode
  /-- `NSPS`, samples per symbol (R25). -/
  nsps : BitVec 8
  /-- `LEN`, number of bits in the buffer (R26). -/
  len : BitVec 9
  /-- `BUF`, the bit buffer (R39). -/
  buf : Memory
  /-- `STATE` (R27). -/
  stat : BlockState
  /-- `DONE` (R52). -/
  done : Bool
  /-- `CAUSE` (R28). -/
  cause : Cause
  /-- `SUB` (R29). -/
  sub : SubCause
  /-- `EINFO` (R30). -/
  einfo : Word
  /-- `NSYM`, number of symbols of the current or last transmission (R31). -/
  nsym : BitVec 9
  /-- `SI`, symbol index (R32). -/
  si : BitVec 9
  /-- `RI`, intra-symbol offset (R33). -/
  ri : BitVec 8
  /-- `T`, time index of the next beat (R34). -/
  t : BitVec 16
  /-- `GRP`, current group (R35). -/
  grp : BitVec 4
  /-- `GLEN`, length tag of `GRP` (R36). -/
  glen : BitVec 3
  /-- `SYM_I` (R37). -/
  symI : Sample
  /-- `SYM_Q` (R38). -/
  symQ : Sample
  /-- `OUT`, every beat the sink has accepted since reset, the first one first (R41). -/
  out : List Beat
  /-- The MODEL's own: the command words the host has still to issue, the one on the `cmd` pins first (R16, R47). Log entry 2. -/
  cmds : List Word
  /-- The MODEL's own: what the environment drives at the coming clock edges, the next one first (R46). Log entry 3. -/
  edges : List EdgeInput
  /-- The MODEL's own: what it drives at every edge after those of `edges`. Log entry 3. -/
  after : EdgeInput
deriving DecidableEq, Repr

/-- Why the model stops. -/
inductive Fault where
  /-- Raised by the emit step alone, when the next symbol's `map` call would raise. R152 says that it cannot ("The step raises
  no error") and gives no effect for it; it needs a state that no run reaches (`BUSY` with a scheme code that has no scheme).
  Safe: the model stops, and nothing is said of what such hardware would do. Log entry 4. -/
  | emitMapRaised
deriving DecidableEq, Repr

/-- Why an instruction has no meaning. -/
inductive Refusal where
  /-- Raised by an arm of `exec` whose instruction has no meaning yet. No arm does: all six commands have their meaning. Safe. -/
  | notModelled (mnemonic : String)
deriving DecidableEq, Repr

/-- The machine right after reset (R50, R231). The three input fields are the model's own: no word to issue, no scripted
edge, a live environment (log entries 2 and 3). -/
def State.reset : State where
  sch := Config.schReset
  nsps := Config.nReset
  len := 0
  buf := []
  stat := .idle
  done := false
  cause := .noError
  sub := .noSub
  einfo := 0
  nsym := 0
  si := 0
  ri := 0
  t := 0
  grp := 0
  glen := 0
  symI := 0
  symQ := 0
  out := []
  cmds := []
  edges := []
  after := .live

end Sys2Proof.Machine
end

