-- ==== Sys2Proof/Machine/Operands.lean ====
section
/-! DEFINITION. The operand forms of the commands and the value conversions their rules use (40_bit_grouper.md R102,
00_scope.md R13). The operands `s` and `n` of `SETSCH` and `SETN` are used as they are (R83, R84). -/

namespace Sys2Proof.Machine

/-- `digit(c)`: the binary digit a character code stands for, or none (R102). -/
def digit (c : CharCode) : Option Bit :=
  if c = Config.ch0 then some 0 else if c = Config.ch1 then some 1 else none

/-- `zext_16`: a value extended with zeros to a 16-bit word (R13). -/
def zext16 {n : Nat} (v : BitVec n) : Word := v.setWidth 16

/-- The integer a sample code denotes (R13: two's complement). -/
def sampleValue (v : Sample) : Int := v.toInt

/-- The code of `STATE` (R27). -/
def BlockState.code : BlockState → BitVec 2
  | .idle => 0
  | .busy => 1
  | .error => 2

/-- The code of `CAUSE` (R28, R200). -/
def Cause.code : Cause → BitVec 3
  | .noError => 0
  | .invalidInput => 1
  | .unknownScheme => 2
  | .invalidGroupLength => 3
  | .overflow => 4
  | .illegalCommand => 5

/-- The code of `SUB` (R29). -/
def SubCause.code : SubCause → BitVec 2
  | .noSub => 0
  | .empty => 1
  | .badChar => 2
  | .notMult => 3

end Sys2Proof.Machine
end

