-- ==== Sys2Proof/Machine/Ops.lean ====
section
/-! DEFINITION. The named operations over the bit buffer and the registers that several rules share: `MemRead`, `MemWrite`
(20_memory.md R63, R64), the error trap (60_exceptions.md R206), the return from it (R211), what `STATE` does to an issued
command (R179), reset (70_reset_and_hazards.md R230). -/

namespace Sys2Proof.Machine

/-! ### The bit buffer -/

/-- The content of one cell, none where nothing has been written. -/
def Memory.read : Memory → Nat → Option Bit
  | [], _ => none
  | (x, v) :: r, a => if a = x then some v else Memory.read r a

/-- `BUF[a] <- b`, keeping the addresses strictly rising. -/
def Memory.write : Memory → Nat → Bit → Memory
  | [], a, b => [(a, b)]
  | (x, v) :: r, a, b =>
    if a < x then (a, b) :: (x, v) :: r
    else if a = x then (a, b) :: r
    else (x, v) :: Memory.write r a b

/-- `BUF[a]` (R15): defined for a written cell below `LEN`, and a free value for any other (R75, log entry 1). -/
def bufBit (s : State) (a : Nat) : Bit :=
  if a < s.len.toNat then (s.buf.read a).getD (Config.undefinedBit a) else Config.undefinedBit a

/-- `MemRead(addr, n)` as a number: `BUF[addr] ++ … ++ BUF[addr+n−1]`, the lowest address the most significant bit
(R61, R64). -/
def memRead (s : State) : (addr n : Nat) → Nat
  | _, 0 => 0
  | addr, n + 1 => (bufBit s addr).toNat * 2 ^ n + memRead s (addr + 1) n

/-- The address `PUSH` stores at: `LEN` before the step (R63). -/
def pushAddr (s : State) : Nat := s.len.toNat

/-- `MemWrite(LEN, 1, b)` together with `LEN <- LEN + 1`: the post-incremented append (R63). -/
def appendBit (b : Bit) (s : State) : State :=
  { s with buf := s.buf.write (pushAddr s) b, len := s.len + 1 }

/-! ### The error trap and the return from it -/

/-- `raise E(sub, info)`: the trap's five writes and nothing else (R206). -/
def trap (r : Trap) (s : State) : State :=
  { s with stat := .error, cause := r.cause, sub := r.sub, einfo := r.info, done := false }

/-- The return from the error state, and the start of a fresh sequence (R176, R211): the six writes of `CLR`. The cells of
`BUF` are not written; `LEN = 0` makes them unreachable. -/
def clearToIdle (s : State) : State :=
  { s with len := 0, stat := .idle, cause := .noError, sub := .noSub, einfo := 0, done := false }

/-! ### What `STATE` does to an issued command -/

/-- A command that executes in `IDLE`, is discarded in `ERROR` (R210) and waits in `BUSY` (R179, R240). -/
def whenIdle (f : State → State) (s : State) : State :=
  match s.stat with
  | .idle => f s
  | .busy => s
  | .error => s

/-- A command that executes in `IDLE` and in `ERROR` and waits in `BUSY` (R175, R176, R179). -/
def whenReady (f : State → State) (s : State) : State :=
  match s.stat with
  | .idle => f s
  | .busy => s
  | .error => f s

/-- A word that `decode` calls illegal: `IllegalCommandError` with the word in `EINFO` when issued in `IDLE`, discarded in
`ERROR` (R205, R210). -/
def illegalWord (w : Word) (s : State) : State :=
  whenIdle (trap { cause := .illegalCommand, sub := .noSub, info := w }) s

/-! ### Output history and reset -/

/-- `emit(beat)`: append one beat to `OUT` (R15, R41). -/
def appendBeat (b : Beat) (s : State) : State := { s with out := s.out ++ [b] }

/-- A clock edge with `rst = 1`: all state takes its reset value (R230). What the environment will do is no state of the
block, so the words still to be issued and the coming edges stay. -/
def resetBlock (s : State) : State :=
  { State.reset with cmds := s.cmds, edges := s.edges, after := s.after }

end Sys2Proof.Machine
end

