-- ==== Sys2Proof/Machine/Registry.lean ====
section
/-! DEFINITION. The Modulation Scheme Registry (43_registry_config.md R170 to R172): a constant table of five rows, selected by
explicit case analysis on the scheme code (41_symbol_mapper.md R139). No command writes it (R172). -/

namespace Sys2Proof.Machine

/-- The closed set of schemes (R2; 90_conflicts.md C7). -/
inductive Scheme where
  | ook
  | psk2
  | psk4
  | qam8
  | qam16
deriving DecidableEq, Repr

/-- The Registry lookup: codes 0 to 4 name the schemes in the source's order, 5 to 7 name none (R170). -/
def schemeOf (c : SchemeCode) : Option Scheme :=
  match c.toNat with
  | 0 => some .ook
  | 1 => some .psk2
  | 2 => some .psk4
  | 3 => some .qam8
  | 4 => some .qam16
  | _ => none

/-- The scheme code of a scheme (R170). -/
def Scheme.code : Scheme → SchemeCode
  | .ook => 0
  | .psk2 => 1
  | .psk4 => 2
  | .qam8 => 3
  | .qam16 => 4

/-- Bits per symbol (R170). -/
def Scheme.bits : Scheme → Nat
  | .ook => 1
  | .psk2 => 1
  | .psk4 => 2
  | .qam8 => 3
  | .qam16 => 4

/-- The source's string identifier (R170). -/
def Scheme.name : Scheme → String
  | .ook => "ook"
  | .psk2 => "2psk"
  | .psk4 => "4psk"
  | .qam8 => "8qam"
  | .qam16 => "16qam"

/-- `k_of(s)` (R15, R170). -/
def kOf (c : SchemeCode) : Option Nat := (schemeOf c).map Scheme.bits

/-- `cplx_of(s)`: 1 for the four PSK and QAM schemes, 0 for OOK and for a code that names no scheme (R171). -/
def cplxOf (c : SchemeCode) : Bool :=
  match schemeOf c with
  | none => false
  | some .ook => false
  | some .psk2 => true
  | some .psk4 => true
  | some .qam8 => true
  | some .qam16 => true

end Sys2Proof.Machine
end

