-- ==== Sys2Proof/Machine/RegistryConfig.lean ====
section
/-! DEFINITION. The four commands that configure and control the block (43_registry_config.md): `SETSCH`, `SETN`, `NOP`,
`CLR`. -/

namespace Sys2Proof.Machine

/-- `SETSCH s` (R173): `SCH <- s`, for any of the eight codes. -/
def execSetsch (c : SchemeCode) (s : State) : Host.Outcome State Fault Refusal :=
  .next (whenIdle (fun s => { s with sch := c }) s)

/-- `SETN n` (R174): `NSPS <- n`; `n ≠ 0` is guaranteed by decode (R89). -/
def execSetn (n : BitVec 8) (s : State) : Host.Outcome State Fault Refusal :=
  .next (whenIdle (fun s => { s with nsps := n }) s)

/-- `NOP` (R175): no state change, in `IDLE` and in `ERROR` alike. -/
def execNop (s : State) : Host.Outcome State Fault Refusal :=
  .next (whenReady (fun s => s) s)

/-- `CLR` (R176, R211). -/
def execClr (s : State) : Host.Outcome State Fault Refusal :=
  .next (whenReady clearToIdle s)

end Sys2Proof.Machine
end

