-- ==== Sys2Proof/Machine/Flags.lean ====
section
/-! DEFINITION. The single-bit indications of the block (10_state.md R23): the block has no arithmetic condition codes. `DONE`
is stored (R52) and is written by the operations that R52 names (`trap`, `clearToIdle`, `RUN`, the last emit step, reset);
the rest are functions of the state. -/

namespace Sys2Proof.Machine

/-- `CPLX` (R23): not stored, equal to `cplx_of(SCH)`. -/
def cplxFlag (s : State) : Bool := cplxOf s.sch

/-- The pin `err` (R49). -/
def errPin (s : State) : Bool := s.stat == .error

/-- The pin `done` (R49). -/
def donePin (s : State) : Bool := s.done

/-- The pin `busy` (R49). -/
def busyPin (s : State) : Bool := s.stat == .busy

/-- `sos`: the beat is the first sample of its symbol (R153). -/
def beatSos (s : State) : Bool := s.ri == 0

/-- `last`: `SI = NSYM − 1` and `RI = NSPS − 1`, over the integers (R13, R153). -/
def beatLast (s : State) : Bool :=
  s.si.toNat + 1 == s.nsym.toNat && s.ri.toNat + 1 == s.nsps.toNat

end Sys2Proof.Machine
end

