-- ==== Sys2Proof/Machine/SymbolMapper.lean ====
section
/-! DEFINITION. The Symbol Mapper (41_symbol_mapper.md R120 to R140): the five constellation tables as data, indexed by the
group value (R139: the table row is normative), the function `map` with its two checks, and the spec's formulas, which the
tables are to agree with row by row. Everything is a function of the four constants of R140. -/

namespace Sys2Proof.Machine

/-! ### The tables -/

/-- OOK (R123): bit 0 is the origin, bit 1 the amplitude A on I. -/
def ookTable (l : Config.Levels) : Vector Sym (2 ^ 1) := #v[⟨0, 0⟩, ⟨l.aOok, 0⟩]

/-- 2-PSK (R124): bit 0 is phase 0°, bit 1 phase 180°. -/
def psk2Table (l : Config.Levels) : Vector Sym (2 ^ 1) := #v[⟨l.pskR, 0⟩, ⟨-l.pskR, 0⟩]

/-- 4-PSK (R125): groups 00, 01, 10, 11 at 45°, 315°, 135°, 225°. -/
def psk4Table (l : Config.Levels) : Vector Sym (2 ^ 2) :=
  #v[⟨l.pskD, l.pskD⟩, ⟨l.pskD, -l.pskD⟩, ⟨-l.pskD, l.pskD⟩, ⟨-l.pskD, -l.pskD⟩]

/-- The sample code of three grid units, `3·QAM_U` (R127, R130). -/
def outer (l : Config.Levels) : Sample := 3 * l.qamU

/-- 8-QAM (R127): signs of I and Q in the first two bits, the ring in the third. -/
def qam8Table (l : Config.Levels) : Vector Sym (2 ^ 3) :=
  #v[⟨l.qamU, l.qamU⟩, ⟨outer l, outer l⟩, ⟨l.qamU, -l.qamU⟩, ⟨outer l, -outer l⟩,
    ⟨-l.qamU, l.qamU⟩, ⟨-outer l, outer l⟩, ⟨-l.qamU, -l.qamU⟩, ⟨-outer l, -outer l⟩]

/-- 16-QAM (R130): the first two bits give the I level, the last two the Q level. -/
def qam16Table (l : Config.Levels) : Vector Sym (2 ^ 4) :=
  #v[⟨l.qamU, l.qamU⟩, ⟨l.qamU, outer l⟩, ⟨l.qamU, -l.qamU⟩, ⟨l.qamU, -outer l⟩,
    ⟨outer l, l.qamU⟩, ⟨outer l, outer l⟩, ⟨outer l, -l.qamU⟩, ⟨outer l, -outer l⟩,
    ⟨-l.qamU, l.qamU⟩, ⟨-l.qamU, outer l⟩, ⟨-l.qamU, -l.qamU⟩, ⟨-l.qamU, -outer l⟩,
    ⟨-outer l, l.qamU⟩, ⟨-outer l, outer l⟩, ⟨-outer l, -l.qamU⟩, ⟨-outer l, -outer l⟩]

/-- The constellation point of a group: the row of the scheme's table that the low `k` bits of `g` select. Bits of `g` above
`k` are ignored (R120). -/
def Scheme.point (l : Config.Levels) (sc : Scheme) (g : BitVec 4) : Sym :=
  match sc with
  | .ook => (ookTable l).get (g.setWidth 1).toFin
  | .psk2 => (psk2Table l).get (g.setWidth 1).toFin
  | .psk4 => (psk4Table l).get (g.setWidth 2).toFin
  | .qam8 => (qam8Table l).get (g.setWidth 3).toFin
  | .qam16 => (qam16Table l).get g.toFin

/-! ### The function `map` -/

/-- `map(s, glen, g)` with the constants as an argument: the Registry lookup (R121), the group-length check (R122), then the
table, in this order (R120). -/
def mapWith (l : Config.Levels) (c glen : BitVec 3) (g : BitVec 4) : Except Trap Sym :=
  match schemeOf c with
  | none => .error { cause := .unknownScheme, sub := .noSub, info := zext16 c }
  | some sc =>
    if glen.toNat = sc.bits then .ok (sc.point l g)
    else .error { cause := .invalidGroupLength, sub := .noSub, info := zext16 glen }

/-- `map(s, glen, g)` at the default constants (R120). -/
def mapSymbol (c glen : BitVec 3) (g : BitVec 4) : Except Trap Sym := mapWith Config.levels c glen g

/-! ### The formulas the tables are to agree with -/

/-- Bit `b1`, `b2`, … of a group of length `k`, in transmission order: `b1` is the most significant (R14). -/
def groupBit (k : Nat) (g : BitVec 4) (j : Nat) : Bool := g.getLsbD (k - j)

/-- A level times a unit, as a sample code (R13: pseudocode arithmetic is on integers, then written to 16 bits). -/
def levelCode (level : Int) (unit : Sample) : Sample := BitVec.ofInt 16 (level * unit.toInt)

/-- A sign bit: 0 is the positive direction, 1 the negative (R137). -/
def signOf (b : Bool) : Int := if b then -1 else 1

/-- `lev(s, m)`: sign bit and magnitude bit (R129). -/
def lev (s m : Bool) : Int := signOf s * (if m then 3 else 1)

/-- `map_ook(b1)` (R123). -/
def formulaOok (l : Config.Levels) (b1 : Bool) : Sym := if b1 then ⟨l.aOok, 0⟩ else ⟨0, 0⟩

/-- `map_2psk(b1)` (R124). -/
def formulaPsk2 (l : Config.Levels) (b1 : Bool) : Sym := ⟨levelCode (signOf b1) l.pskR, 0⟩

/-- `map_4psk(b1 b2)` (R125). -/
def formulaPsk4 (l : Config.Levels) (b1 b2 : Bool) : Sym :=
  ⟨levelCode (signOf b1) l.pskD, levelCode (signOf b2) l.pskD⟩

/-- `map_8qam(b1 b2 b3)` (R127). -/
def formulaQam8 (l : Config.Levels) (b1 b2 b3 : Bool) : Sym :=
  ⟨levelCode (lev b1 b3) l.qamU, levelCode (lev b2 b3) l.qamU⟩

/-- `map_16qam(b1 b2 b3 b4)` (R130). -/
def formulaQam16 (l : Config.Levels) (b1 b2 b3 b4 : Bool) : Sym :=
  ⟨levelCode (lev b1 b2) l.qamU, levelCode (lev b3 b4) l.qamU⟩

/-- The formula of a scheme applied to the bits of a group (R123 to R130). -/
def Scheme.formula (l : Config.Levels) (sc : Scheme) (g : BitVec 4) : Sym :=
  match sc with
  | .ook => formulaOok l (groupBit 1 g 1)
  | .psk2 => formulaPsk2 l (groupBit 1 g 1)
  | .psk4 => formulaPsk4 l (groupBit 2 g 1) (groupBit 2 g 2)
  | .qam8 => formulaQam8 l (groupBit 3 g 1) (groupBit 3 g 2) (groupBit 3 g 3)
  | .qam16 => formulaQam16 l (groupBit 4 g 1) (groupBit 4 g 2) (groupBit 4 g 3) (groupBit 4 g 4)

/-! ### Distances in the constellation -/

/-- The squared distance of two points, in code units (R126, R128, R133). -/
def dist2 (p q : Sym) : Int :=
  (p.i.toInt - q.i.toInt) ^ 2 + (p.q.toInt - q.q.toInt) ^ 2

/-- In how many bits two groups differ. -/
def bitDistance (g h : BitVec 4) : Nat :=
  ((List.range 4).filter fun j => g.getLsbD j != h.getLsbD j).length

/-- `h` is a nearest neighbour of `g` in the scheme's constellation: another group of the scheme, and no third one nearer. -/
abbrev nearest (l : Config.Levels) (sc : Scheme) (g h : BitVec 4) : Prop :=
  g.toNat < 2 ^ sc.bits ∧ h.toNat < 2 ^ sc.bits ∧ g ≠ h ∧
    ∀ x : BitVec 4, x.toNat < 2 ^ sc.bits → x ≠ g → dist2 (sc.point l g) (sc.point l h) ≤ dist2 (sc.point l g) (sc.point l x)

end Sys2Proof.Machine
end

