-- ==== Sys2Proof/Machine/BitGrouper.lean ====
section
/-! DEFINITION. The Bit Grouper (40_bit_grouper.md): the command `PUSH`, the length validation and the group extraction that
`RUN` and the emit step call. -/

namespace Sys2Proof.Machine

/-- `PUSH c` in `IDLE` (R101): the digit check comes before the overflow check (R209). A store beyond the top of the buffer
raises `OverflowError` (R67, R204); `LEN > MAXBITS` never occurs (R43). -/
def pushIdle (c : CharCode) (s : State) : State :=
  match digit c with
  | none => trap { cause := .invalidInput, sub := .badChar, info := zext16 c } s
  | some d =>
    if Config.maxBits ≤ s.len.toNat then trap { cause := .overflow, sub := .noSub, info := zext16 c } s
    else appendBit d s

/-- `PUSH c` (R101). -/
def execPush (c : CharCode) (s : State) : Host.Outcome State Fault Refusal :=
  .next (whenIdle (pushIdle c) s)

/-- `check_len(LEN, k)` (R104): the number of groups, or `InvalidInputError`. -/
def checkLen (len k : Nat) : Except Trap Nat :=
  if len = 0 then .error { cause := .invalidInput, sub := .empty, info := 0 }
  else if len % k ≠ 0 then .error { cause := .invalidInput, sub := .notMult, info := BitVec.ofNat 16 (len % k) }
  else .ok (len / k)

/-- `zext_4(group(j, k))` (R103): the value `GRP` takes for symbol `j`. -/
def groupReg (s : State) (k j : Nat) : BitVec 4 := BitVec.ofNat 4 (memRead s (j * k) k)

/-- The length tag the grouper attaches to every group (R36, R106). -/
def lengthTag (k : Nat) : BitVec 3 := BitVec.ofNat 3 k

/-- `map(SCH, k, group(j, k))`: what `RUN` and the emit step ask of the mapper (R151, R152). -/
def mapGroup (s : State) (k j : Nat) : Except Trap Sym := mapSymbol s.sch (lengthTag k) (groupReg s k j)

end Sys2Proof.Machine
end

