-- ==== Sys2Proof/Machine/WaveformSynth.lean ====
section
/-! DEFINITION. The Waveform Synthesizer (42_waveform_synth.md): the command `RUN`, the current beat, the emit step, and the
whole transmission as a list of beats (R161). -/

namespace Sys2Proof.Machine

/-! ### RUN -/

/-- The validation pass: `map` on every group, in order; the first one that raises decides (R151 step 3). -/
def validateGroups (s : State) (k : Nat) : List Nat → Except Trap Unit
  | [] => .ok ()
  | j :: js =>
    match mapGroup s k j with
    | .error r => .error r
    | .ok _ => validateGroups s k js

/-- `GRP`, `GLEN`, `SYM_I`, `SYM_Q` loaded for symbol `j` (R35 to R38, R151 step 4, R152). -/
def loadSymbol (k j : Nat) (s : State) : Except Trap State :=
  match mapGroup s k j with
  | .error r => .error r
  | .ok p => .ok { s with grp := groupReg s k j, glen := lengthTag k, symI := p.i, symQ := p.q }

/-- `RUN` once the length is known: the validation pass, then the start of the transmission (R151 steps 3 and 4). -/
def startTransmission (k nsym : Nat) (s : State) : Except Trap State :=
  match validateGroups s k (List.range nsym) with
  | .error r => .error r
  | .ok _ =>
    match loadSymbol k 0 s with
    | .error r => .error r
    | .ok s1 => .ok { s1 with nsym := BitVec.ofNat 9 nsym, si := 0, ri := 0, t := 0, done := false, stat := .busy }

/-- The checks of `RUN` in their order (R151, R209): Registry, length, mapper. Every check is made before the first beat
(R150). -/
def runChecked (s : State) : Except Trap State :=
  match kOf s.sch with
  | none => .error { cause := .unknownScheme, sub := .noSub, info := zext16 s.sch }
  | some k =>
    match checkLen s.len.toNat k with
    | .error r => .error r
    | .ok nsym => startTransmission k nsym s

/-- `RUN` in `IDLE`: the transmission starts, or the error is raised in place of every other write (R151, R206). -/
def runIdle (s : State) : State :=
  match runChecked s with
  | .error r => trap r s
  | .ok s1 => s1

/-- `RUN` (R151). -/
def execRun (s : State) : Host.Outcome State Fault Refusal := .next (whenIdle runIdle s)

/-! ### The emit step -/

/-- The beat the output port carries in `BUSY` (R153). -/
def currentBeat (s : State) : Beat :=
  { t := s.t, i := s.symI, q := s.symQ, sos := beatSos s, last := beatLast s, cplx := cplxFlag s }

/-- The beat accepted and the time index advanced: what all three branches of R152 share. -/
def acceptBeat (s : State) : State := { appendBeat (currentBeat s) s with t := s.t + 1 }

/-- More samples of this symbol follow (R152, first branch): `RI < NSPS − 1` over the integers. -/
abbrev moreSamples (s : State) : Prop := s.ri.toNat + 1 < s.nsps.toNat

/-- Another symbol follows (R152, second branch): `SI < NSYM − 1` over the integers. -/
abbrev moreSymbols (s : State) : Prop := s.si.toNat + 1 < s.nsym.toNat

/-- The second branch: symbol `SI + 1` is loaded. `map` cannot raise here (R152); if it does the model stops (log entry 4). -/
def nextSymbol (s : State) : Host.Outcome State Fault Refusal :=
  match kOf s.sch with
  | none => .fault .emitMapRaised
  | some k =>
    match loadSymbol k (s.si.toNat + 1) (acceptBeat s) with
    | .error _ => .fault .emitMapRaised
    | .ok s1 => .next { s1 with ri := 0, si := s.si + 1 }

/-- The third branch: that was the last beat (R152, R159). -/
def finishTransmission (s : State) : State :=
  { acceptBeat s with ri := 0, si := s.si + 1, done := true, stat := .idle }

/-- The emit step (R152). -/
def emitStep (s : State) : Host.Outcome State Fault Refusal :=
  if moreSamples s then .next { acceptBeat s with ri := s.ri + 1 }
  else if moreSymbols s then nextSymbol s
  else .next (finishTransmission s)

/-! ### A transmission as a list of beats -/

/-- The beat of symbol `j` and offset `r` of a transmission of `n` samples per symbol and `N` symbols (R154, R161). -/
def signalBeat (sc : Scheme) (s : State) (n N j r : Nat) : Beat :=
  { t := BitVec.ofNat 16 (j * n + r)
    i := (sc.point Config.levels (groupReg s sc.bits j)).i
    q := (sc.point Config.levels (groupReg s sc.bits j)).q
    sos := r == 0
    last := j + 1 == N && r + 1 == n
    cplx := cplxOf sc.code }

/-- The list of R161: `N` symbols, `n` beats each, symbols outer, samples inner. -/
def signalBeats (sc : Scheme) (s : State) (n N : Nat) : List Beat :=
  (List.range N).flatMap fun j => (List.range n).map fun r => signalBeat sc s n N j r

/-- The Symbol list of a sequence of beats: the points of the beats with `sos = 1` (R158). -/
def symbolList (bs : List Beat) : List Sym := (bs.filter fun b => b.sos).map fun b => ⟨b.i, b.q⟩

end Sys2Proof.Machine
end

