-- ==== Sys2Proof/Machine/Dispatch.lean ====
section
/-! DEFINITION. The meaning of every command, one arm per constructor of `Instr`. -/

namespace Sys2Proof.Machine

open Sys2Proof

def exec (i : Instr) (s : State) : Host.Outcome State Fault Refusal :=
  match i with
  | .nop => Sys2Proof.Machine.execNop s
  | .clr => Sys2Proof.Machine.execClr s
  | .setsch c => Sys2Proof.Machine.execSetsch c s
  | .setn n => Sys2Proof.Machine.execSetn n s
  | .push c => Sys2Proof.Machine.execPush c s
  | .run => Sys2Proof.Machine.execRun s

end Sys2Proof.Machine
end

