-- ==== Sys2Proof/Machine/Ports.lean ====
section
/-! DEFINITION. The output side of the ports (10_state.md R44 to R49): `cmd_ready`, the output port, the status port. All are
functions of the state; reading them has no effect (R44, R246). -/

namespace Sys2Proof.Machine

/-- `cmd_ready` (R47). -/
def cmdReady (s : State) : Bool := s.stat != .busy

/-- `out_valid` (R48). -/
def outValid (s : State) : Bool := s.stat == .busy

/-- The fields of the output port while `out_valid = 0`: all 0 (R48). -/
def zeroBeat : Beat := { t := 0, i := 0, q := 0, sos := false, last := false, cplx := false }

/-- `out_t`, `out_i`, `out_q`, `out_sos`, `out_last`, `out_cplx`: the current beat while `out_valid = 1`, else 0 (R48). -/
def outPort (s : State) : Beat := if outValid s then currentBeat s else zeroBeat

/-- The `STATUS` word (R45): `[1:0]` `STATE`, `[2]` `DONE`, `[3]` `CPLX`, `[6:4]` `CAUSE`, `[8:7]` `SUB`, `[15:9]` zero. -/
def statusWord (s : State) : Word :=
  0#7 ++ (s.sub.code ++ (s.cause.code ++ (BitVec.ofBool (cplxFlag s) ++ (BitVec.ofBool s.done ++ s.stat.code))))

/-- The status port: `sr_data` for the register number on `sr_sel` (R44). -/
def srData (s : State) (sel : BitVec 4) : Word :=
  match sel.toNat with
  | 0 => statusWord s
  | 1 => s.einfo
  | 2 => zext16 s.sch
  | 3 => zext16 s.nsps
  | 4 => zext16 s.len
  | 5 => zext16 s.nsym
  | 6 => zext16 s.si
  | 7 => zext16 s.ri
  | 8 => s.t
  | 9 => zext16 (s.glen ++ s.grp)
  | 10 => s.symI
  | 11 => s.symQ
  | _ => 0

end Sys2Proof.Machine
end

