-- ==== Sys2Proof/Machine/Issue.lean ====
section
/-! DEFINITION. One rising edge of `clk` (10_state.md R46 to R48, 70_reset_and_hazards.md R230, R240): reset wins; in `BUSY` a
beat is accepted if the sink is ready; otherwise the host's next word is issued if it is offered. -/

namespace Sys2Proof.Machine

/-- What the environment drives at the coming edge. -/
def edgeNow (s : State) : EdgeInput := s.edges.headD s.after

/-- That edge used up. -/
def dropEdge (s : State) : State := { s with edges := s.edges.tail }

/-- An issued word: the decoded command is executed, or the illegal word raises (R94, R205). -/
def issueWord (w : Word) (s : State) : Host.Outcome State Fault Refusal :=
  match decode w with
  | .command i => exec i s
  | .illegal _ _ => .next (illegalWord w s)

/-- The host's next word is issued and leaves the stream (R47). With no word to offer the block waits (R221). -/
def issueNext (s : State) : Host.Outcome State Fault Refusal :=
  match s.cmds with
  | [] => .next s
  | w :: ws => issueWord w { s with cmds := ws }

/-- One clock edge with the inputs `e`. In `BUSY` no word is issued: an offered one stays in the stream (R47, R240). -/
def clockEdge (e : EdgeInput) (s : State) : Host.Outcome State Fault Refusal :=
  if e.rst then .next (resetBlock s)
  else if cmdReady s then (if e.cmdValid then issueNext s else .next s)
  else if e.outReady then emitStep s else .next s

/-- The edge, changed as little as needed so that a word offered at it is issued: no reset, `cmd_valid = 1`. -/
def issuingEdge (e : EdgeInput) : EdgeInput := { e with rst := false, cmdValid := true }

/-- `w` placed on the `cmd` pins in place of the host's next word, offered at the coming edge. -/
def offerWord (w : Word) (s : State) : State :=
  { s with
    cmds := w :: s.cmds.tail
    edges := if s.edges = [] ∧ issuingEdge s.after = s.after then [] else issuingEdge (edgeNow s) :: s.edges.tail }

end Sys2Proof.Machine
end

