-- ==== Sys2Proof/Machine/Step.lean ====
section
/-! DEFINITION. One step of the machine: one rising edge of `clk`, with the inputs of the coming edge. -/

namespace Sys2Proof.Machine

/-- One step (R10, R46): the coming edge is used up and the block does what `clockEdge` says. -/
def step (s : State) : Host.Outcome State Fault Refusal := clockEdge (edgeNow s) (dropEdge s)

/-- `s` with the command word of the table row on the `cmd` pins at the coming edge. A word cannot be issued in `BUSY` (R47):
`STATE` is left as it is, so there the word waits. Log entry 2. -/
def State.withFetchWord (s : State) (nbits w : Nat) : State := offerWord (tableWord nbits w) s

end Sys2Proof.Machine
end

