-- ==== Sys2Proof/Machine/Assembler.lean ====
section
/-! DEFINITION. The assembler notation of 30_encoding.md R92, R93 and R95 as data: what each line and each pseudo-instruction
encodes. It is notation for command streams, no part of the block (92_eei_decisions.md D33): the block sees only the words. -/

namespace Sys2Proof.Machine

/-- The operand of `SETSCH`: a scheme name or a number (R92). -/
inductive SchemeOperand where
  | name (n : String)
  | number (n : Nat)
deriving DecidableEq, Repr

/-- The operand of `PUSH`: a quoted character or a number (R92). -/
inductive CharOperand where
  | quoted (c : Char)
  | number (n : Nat)
deriving DecidableEq, Repr

/-- One line of a listing (R92, R93). Bit strings are lists of characters. -/
inductive AsmLine where
  | nop
  | clr
  | setsch (s : SchemeOperand)
  | setn (n : Nat)
  | push (c : CharOperand)
  | run
  | word (w : Nat)
  | bits (str : List Char)
  | send (s : SchemeOperand) (n : Nat) (str : List Char)
  | sendargs (s : SchemeOperand) (n : Nat) (args : List (List Char))
deriving DecidableEq, Repr

/-- The scheme code of an operand: exactly the source's five identifiers, or a number 0 to 7 (R92). -/
def schemeOperand : SchemeOperand → Option SchemeCode
  | .name n => ([Scheme.ook, .psk2, .psk4, .qam8, .qam16].find? fun sc => sc.name == n).map Scheme.code
  | .number n => if n ≤ 7 then some (BitVec.ofNat 3 n) else none

/-- The character's 7-bit ASCII code zero-extended to 8 bits (R95); a character outside ASCII has none. -/
def charCode (c : Char) : Option CharCode :=
  if c.toNat < 128 then some (BitVec.ofNat 8 c.toNat) else none

/-- The character code of an operand: a quoted character or a number 0 to 255 (R92). -/
def charOperand : CharOperand → Option CharCode
  | .quoted c => charCode c
  | .number n => if n ≤ 255 then some (BitVec.ofNat 8 n) else none

/-- `SETSCH <s>` (R92). -/
def asmSetsch (s : SchemeOperand) : Option Word := (schemeOperand s).map fun c => encode (.setsch c)

/-- `SETN <n>`: the assembler rejects 0 and anything above 255 (R92). -/
def asmSetn (n : Nat) : Option Word :=
  if 1 ≤ n ∧ n ≤ 255 then some (encode (.setn (BitVec.ofNat 8 n))) else none

/-- `BITS "<string>"`: one `PUSH` for each character, left to right, any character (R93). -/
def asmBits : List Char → Option (List Word)
  | [] => some []
  | c :: cs =>
    match charCode c, asmBits cs with
    | some v, some ws => some (encode (.push v) :: ws)
    | _, _ => none

/-- `SEND` and `SENDARGS`: `CLR; SETSCH; SETN; BITS …; RUN`; the separators of the arguments are not pushed (R93). -/
def asmSend (s : SchemeOperand) (n : Nat) (str : List Char) : Option (List Word) :=
  match asmSetsch s, asmSetn n, asmBits str with
  | some ws, some wn, some wb => some (encode .clr :: ws :: wn :: (wb ++ [encode .run]))
  | _, _, _ => none

/-- The command words of a line, none where the assembler rejects it (R92, R93). -/
def assemble : AsmLine → Option (List Word)
  | .nop => some [encode .nop]
  | .clr => some [encode .clr]
  | .setsch s => (asmSetsch s).map fun w => [w]
  | .setn n => (asmSetn n).map fun w => [w]
  | .push c => (charOperand c).map fun v => [encode (.push v)]
  | .run => some [encode .run]
  | .word w => if w < 2 ^ 16 then some [BitVec.ofNat 16 w] else none
  | .bits str => asmBits str
  | .send s n str => asmSend s n str
  | .sendargs s n args => asmSend s n args.flatten

end Sys2Proof.Machine
end

