-- ==== Sys2Proof/Safety.lean ====
section
/-! DEFINITION. What a good state and a good run are, in the terms the statements use: the invariants of 10_state.md R43 with
those of R28 to R33, R224 and R225, the shape of the output history (60_exceptions.md R226), the end of a run (R165, R166). -/

namespace Sys2Proof.Machine

/-! ### The state after reset -/

/-- Every row of the reset table R50 that fixes a value. `BUF` is unspecified there, so nothing is said of it. -/
structure ResetValues (s : State) : Prop where
  sch : s.sch = 7
  nsps : s.nsps = 1
  len : s.len = 0
  stat : s.stat = .idle
  done : s.done = false
  cause : s.cause = .noError
  sub : s.sub = .noSub
  einfo : s.einfo = 0
  nsym : s.nsym = 0
  si : s.si = 0
  ri : s.ri = 0
  t : s.t = 0
  grp : s.grp = 0
  glen : s.glen = 0
  symI : s.symI = 0
  symQ : s.symQ = 0
  out : s.out = []
  cmdReady : cmdReady s = true
  outValid : outValid s = false
  outPort : outPort s = zeroBeat
  err : errPin s = false
  donePin : donePin s = false
  busy : busyPin s = false

/-! ### The coming edge -/

/-- At the coming edge there is no reset and the host offers the word `w`, with `ws` to follow (R47). -/
abbrev Offers (s : State) (w : Word) (ws : List Word) : Prop :=
  (edgeNow s).rst = false ∧ (edgeNow s).cmdValid = true ∧ s.cmds = w :: ws

/-- The state in which an offered word is executed: the edge is used up and the word has left the stream. -/
def issued (s : State) (ws : List Word) : State := { s with cmds := ws, edges := s.edges.tail }

/-- At the coming edge a beat is accepted: `BUSY`, no reset, a ready sink (R48). -/
abbrev BeatAccepted (s : State) : Prop :=
  s.stat = .busy ∧ (edgeNow s).rst = false ∧ (edgeNow s).outReady = true

/-! ### The invariants of every reachable state -/

/-- What holds in `BUSY` (R43 item 4): the run registers describe symbol `SI` of a validated transmission. -/
structure Transmitting (s : State) (sc : Scheme) : Prop where
  scheme : schemeOf s.sch = some sc
  lenPos : 0 < s.len.toNat
  lenEq : s.len.toNat = s.nsym.toNat * sc.bits
  siLt : s.si.toNat < s.nsym.toNat
  time : s.t.toNat = s.si.toNat * s.nsps.toNat + s.ri.toNat
  tag : s.glen = lengthTag sc.bits
  group : s.grp = groupReg s sc.bits s.si.toNat
  symbol : mapSymbol s.sch s.glen s.grp = .ok ⟨s.symI, s.symQ⟩
  notDone : s.done = false

/-- What `SUB` and `EINFO` record for each cause, against the `SCH` and `LEN` that the trap left unchanged (R29, R200, R225). -/
def ErrorRecord (s : State) : Prop :=
  match s.cause with
  | .noError => s.sub = .noSub ∧ s.einfo = 0
  | .invalidInput =>
    (s.sub = .empty ∧ s.einfo = 0 ∧ s.len = 0 ∧ (kOf s.sch).isSome) ∨
    (s.sub = .badChar ∧ ∃ c, digit c = none ∧ s.einfo = zext16 c) ∨
    (s.sub = .notMult ∧ ∃ k, kOf s.sch = some k ∧ s.len.toNat % k ≠ 0 ∧ s.einfo = BitVec.ofNat 16 (s.len.toNat % k))
  | .unknownScheme => s.sub = .noSub ∧ kOf s.sch = none ∧ s.einfo = zext16 s.sch
  | .invalidGroupLength => False
  | .overflow => s.sub = .noSub ∧ s.len.toNat = Config.maxBits ∧ (s.einfo = zext16 Config.ch0 ∨ s.einfo = zext16 Config.ch1)
  | .illegalCommand => s.sub = .noSub ∧ (decode s.einfo).instr? = none

/-- The output history read from its start: each beat's `t` counts from 0 within its transmission, which its `last` beat
closes. The answer is how many beats of an unclosed transmission stand at the end, or none where the history is broken
(R154, R207, R226). -/
def historyPhase : Nat → List Beat → Option Nat
  | n, [] => some n
  | n, b :: bs => if b.t.toNat = n then historyPhase (if b.last then 0 else n + 1) bs else none

/-- How many beats of the transmission in progress have been accepted. -/
def openBeats (s : State) : Nat := if s.stat = .busy then s.t.toNat else 0

/-- The invariants of every reachable state: R43 items 1 to 5, the canonical form of the buffer, R28 to R33, R75, R224, R225,
R226. R43 item 6 is about steps. -/
structure Inv (s : State) : Prop where
  memory : s.buf.wf
  written : ∀ a, a < s.len.toNat → (s.buf.read a).isSome = true
  lenLe : s.len.toNat ≤ Config.maxBits
  nspsPos : 1 ≤ s.nsps.toNat
  errorIff : s.stat = .error ↔ s.cause ≠ .noError
  record : ErrorRecord s
  nsymLe : s.nsym.toNat ≤ Config.maxBits
  siLe : s.si.toNat ≤ s.nsym.toNat
  glenLe : s.glen.toNat ≤ 4
  riLt : s.ri.toNat < s.nsps.toNat
  riIdle : s.stat ≠ .busy → s.ri = 0
  busy : s.stat = .busy → ∃ sc, Transmitting s sc
  done : s.done = true → s.stat = .idle ∧ s.si = s.nsym ∧
    ∃ n, 1 ≤ n ∧ n ≤ Config.nMax ∧ s.t.toNat = s.nsym.toNat * n
  history : historyPhase 0 s.out = some (openBeats s)

/-! ### The end of a run -/

/-- A command stream has run to its end (R165). -/
abbrev RanToEnd (s : State) : Prop := s.cmds = [] ∧ s.stat ≠ .busy

/-- Success of an invocation: exit code 0 of the source's command line (R166). -/
abbrev Succeeded (s : State) : Prop := s.stat = .idle ∧ s.done = true

/-- Failure of an invocation (R166). -/
abbrev Failed (s : State) : Prop := s.stat = .error

/-! ### States that differ only where the spec says nothing -/

/-- Two states that agree in everything but the cells of `BUF` at or above `LEN` (R75). -/
structure AgreeBelowLen (s u : State) : Prop where
  rest : u = { s with buf := u.buf }
  cells : ∀ a, a < s.len.toNat → u.buf.read a = s.buf.read a

/-- A state with no scripted edge left and a live environment for ever: what remains when the timing of the inputs is
forgotten (R12). -/
def untimed (s : State) : State := { s with edges := [], after := .live }

/-- A sink that accepts every beat, no scripted edge, no reset (R243). -/
abbrev ReadySink (s : State) : Prop := s.edges = [] ∧ s.after.rst = false ∧ s.after.outReady = true

/-- The hypotheses under which `RUN` passes validation (R151 steps 1 and 2). -/
abbrev RunValid (s : State) (sc : Scheme) : Prop :=
  schemeOf s.sch = some sc ∧ 0 < s.len.toNat ∧ s.len.toNat % sc.bits = 0

/-- The state a completed transmission leaves (R161): `OUT` longer by the list of beats, the run and datapath registers at
their final values, everything else unchanged. -/
def afterTransmission (sc : Scheme) (s : State) : State :=
  { s with
    out := s.out ++ signalBeats sc s s.nsps.toNat (s.len.toNat / sc.bits)
    nsym := BitVec.ofNat 9 (s.len.toNat / sc.bits)
    si := BitVec.ofNat 9 (s.len.toNat / sc.bits)
    ri := 0
    t := BitVec.ofNat 16 (s.len.toNat / sc.bits * s.nsps.toNat)
    grp := groupReg s sc.bits (s.len.toNat / sc.bits - 1)
    glen := lengthTag sc.bits
    symI := (sc.point Config.levels (groupReg s sc.bits (s.len.toNat / sc.bits - 1))).i
    symQ := (sc.point Config.levels (groupReg s sc.bits (s.len.toNat / sc.bits - 1))).q
    done := true
    stat := .idle }

end Sys2Proof.Machine
end

