-- ==== Sys2Proof/Certificates/Slice0/Obligations.lean ====
section
/-! DEFINITION. The statements for the provers, each from the numbered rules of spec/. The input pins of 10_state.md R46 are
read from the fields `cmds`, `edges` and `after` of the state (log entries 2 and 3). A statement marked "model's choice" in
its docstring rests in part on the log entry it names; all others rest on the spec alone. -/

open Sys2Proof Sys2Proof.Machine

/-! ### Reset -/

/-- R50: every row of the reset table that fixes a value, the pins among them. -/
def Obligations.ResetStateHasSpecifiedValues : Prop := ResetValues State.reset

/-- R230: at an edge with `rst = 1` all state takes its reset value, whatever the state and the other inputs; no command is
issued (the host's words stay) and no beat is accepted (`OUT` is the empty list of R50). -/
def Obligations.ResetEdgeOverridesEverything : Prop :=
  ∀ s : State, (edgeNow s).rst = true → ∃ t, step s = .next t ∧ ResetValues t ∧ t.cmds = s.cmds

/-! ### Encoding and decode -/

/-- 30_encoding.md section 3: a word of each of the six commands, written from R82, and a word with each kind of must-be-zero
bit set. -/
def Obligations.SampleWordsDecodeAsEncoded : Prop :=
  decode 0b0000000000000000#16 = .command .nop ∧ decode 0b0001000000000000#16 = .command .clr ∧
  decode 0b0010000000000100#16 = .command (.setsch 4) ∧ decode 0b0011000011111111#16 = .command (.setn 255) ∧
  decode 0b0100000000110001#16 = .command (.push 0x31) ∧ decode 0b0101000000000000#16 = .command .run ∧
  decode 0x2008 = .illegal 0x2008 .operandBits ∧ decode 0x3000 = .illegal 0x3000 .zeroCount ∧
  decode 0x4131 = .illegal 0x4131 .reservedField ∧ decode 0x6000 = .illegal 0x6000 .reservedOpcode

/-- R94: the decode function on all 65536 words, by the ranges of R82 to R89: each legal range with its operand, and every
word outside them illegal. -/
def Obligations.DecodeFollowsWordRanges : Prop :=
  ∀ w : Word,
    if w.toNat = 0 then decode w = .command .nop
    else if w.toNat = 0x1000 then decode w = .command .clr
    else if 0x2000 ≤ w.toNat ∧ w.toNat ≤ 0x2007 then decode w = .command (.setsch (BitVec.ofNat 3 (w.toNat - 0x2000)))
    else if 0x3001 ≤ w.toNat ∧ w.toNat ≤ 0x30FF then decode w = .command (.setn (BitVec.ofNat 8 (w.toNat - 0x3000)))
    else if 0x4000 ≤ w.toNat ∧ w.toNat ≤ 0x40FF then decode w = .command (.push (BitVec.ofNat 8 (w.toNat - 0x4000)))
    else if w.toNat = 0x5000 then decode w = .command .run
    else ∃ r, decode w = .illegal w r

/-- 30_encoding.md section 3 (the count in R90): exactly 522 of the 65536 words are legal. -/
def Obligations.ExactlyFiveHundredTwentyTwoLegalWords : Prop :=
  ((List.range 65536).filter fun n => (decode (BitVec.ofNat 16 n)).instr?.isSome).length = 522

/-- Decode and encode agree: every well-formed command, with every operand, is read back from its word. -/
def Obligations.DecodeOfEncodeIsTheCommand : Prop :=
  ∀ i : Instr, i.wellFormed = true → decode (encode i) = .command i

/-- The other direction: a legal word has one meaning only, a well-formed command that encodes to it. -/
def Obligations.EncodeOfDecodedIsTheWord : Prop :=
  ∀ (w : Word) (i : Instr), decode w = .command i → i.wellFormed = true ∧ encode i = w

/-! ### The command port -/

/-- A step runs the decoded command: outside `BUSY`, the offered word leaves the stream, the edge is used up, and the step is
`exec` of the command the word decodes to. -/
def Obligations.StepExecutesTheIssuedCommand : Prop :=
  ∀ (s : State) (w : Word) (ws : List Word) (i : Instr),
    Offers s w ws → s.stat ≠ .busy → decode w = .command i → step s = exec i (issued s ws)

/-- R205: an illegal word issued in `IDLE` raises `IllegalCommandError` with the word in `EINFO` and no other write than the
trap's; issued in `ERROR` it is discarded and the recorded cause stays. -/
def Obligations.IllegalWordRaisesOrIsDiscarded : Prop :=
  ∀ (s : State) (w : Word) (ws : List Word), Offers s w ws → (decode w).instr? = none →
    (s.stat = .idle → step s = .next { issued s ws with
      stat := .error, cause := .illegalCommand, sub := .noSub, einfo := w, done := false }) ∧
    (s.stat = .error → step s = .next (issued s ws))

/-- R210: in `ERROR` the command port is ready and consumes every word; `CLR` executes, `NOP` has no effect, every other word,
legal or illegal, changes no state. -/
def Obligations.ErrorStateDiscardsAllButClr : Prop :=
  ∀ (s : State) (w : Word) (ws : List Word), s.stat = .error → cmdReady s = true ∧
    (Offers s w ws →
      (decode w = .command .clr → step s = .next { issued s ws with
        len := 0, stat := .idle, cause := .noError, sub := .noSub, einfo := 0, done := false }) ∧
      (decode w ≠ .command .clr → step s = .next (issued s ws)))

/-- 70_reset_and_hazards.md section 3 (R240): in `BUSY` an offered word is neither executed nor dropped, and whether the host
offers it makes no difference to the step. -/
def Obligations.OfferedWordsWaitWhileBusy : Prop :=
  (∀ s t : State, s.stat = .busy → step s = .next t → t.cmds = s.cmds) ∧
  (∀ (s : State) (e : EdgeInput) (es : List EdgeInput) (v : Bool), s.stat = .busy →
    step { s with edges := { e with cmdValid := v } :: es } = step { s with edges := e :: es })

/-- 43_registry_config.md section 6 (R179, column `BUSY`): a command cannot be issued in `BUSY`. That `exec`, which the step
never asks there, leaves the state as it is, is the model's choice (log entry 9). -/
def Obligations.CommandsWaitInBusy : Prop :=
  ∀ (i : Instr) (s : State), s.stat = .busy → exec i s = .next s

/-- 60_exceptions.md section 9 (R221): outside `BUSY`, with no word offered, the block waits and keeps all its state. With
`cmd_valid = 0` this is the spec's. That with `cmd_valid = 1` and no word left in the stream nothing is issued either is the
model's choice (log entry 2). -/
def Obligations.BlockWaitsWithoutACommand : Prop :=
  ∀ s : State, s.stat ≠ .busy → (edgeNow s).rst = false → ((edgeNow s).cmdValid = false ∨ s.cmds = []) →
    step s = .next { s with edges := s.edges.tail }

/-! ### The commands -/

/-- R175: `NOP` executes in `IDLE` and in `ERROR` alike and changes nothing. -/
def Obligations.NopChangesNothing : Prop :=
  decode 0x0000 = .command .nop ∧ ∀ s : State, s.stat ≠ .busy → exec .nop s = .next s

/-- R176: `CLR` executes in `IDLE` and in `ERROR`: its six writes and nothing else (the cells of `BUF` keep their content); a
second `CLR` changes nothing; no other command leaves `ERROR`; in `BUSY` no command is issued. -/
def Obligations.ClrEmptiesBufferAndLeavesError : Prop :=
  decode 0x1000 = .command .clr ∧ (∀ s : State, s.stat = .busy → cmdReady s = false) ∧
  (∀ (i : Instr) (s t : State), s.stat = .error → exec i s = .next t → t.stat ≠ .error → i = .clr) ∧
  ∀ s : State, s.stat ≠ .busy →
    ∃ t, exec .clr s = .next t ∧
      t = { s with len := 0, stat := .idle, cause := .noError, sub := .noSub, einfo := 0, done := false } ∧
      (∀ a, t.buf.read a = s.buf.read a) ∧ errPin t = false ∧ donePin t = false ∧ exec .clr t = .next t

/-- R173: `SETSCH s` writes `SCH` and nothing else in `IDLE`, for each of the eight codes, `CPLX` following at once; it is
discarded in `ERROR`; the words `0x2008` to `0x20FF` are illegal. -/
def Obligations.SetschSelectsTheScheme : Prop :=
  (∀ (c : SchemeCode) (s : State),
    decode (0x2000 + zext16 c) = .command (.setsch c) ∧
    (s.stat = .idle → exec (.setsch c) s = .next { s with sch := c } ∧ cplxFlag { s with sch := c } = cplxOf c) ∧
    (s.stat = .error → exec (.setsch c) s = .next s)) ∧
  (∀ w : Word, 0x2008 ≤ w.toNat → w.toNat ≤ 0x20FF → (decode w).instr? = none)

/-- R174: `SETN n`, `n ≠ 0`, writes `NSPS` and nothing else in `IDLE`; it is discarded in `ERROR`; `0x3000` is illegal. -/
def Obligations.SetnSetsSamplesPerSymbol : Prop :=
  (∀ (n : BitVec 8) (s : State), n ≠ 0 →
    decode (0x3000 + zext16 n) = .command (.setn n) ∧
    (s.stat = .idle → exec (.setn n) s = .next { s with nsps := n }) ∧
    (s.stat = .error → exec (.setn n) s = .next s)) ∧
  (decode 0x3000).instr? = none

/-- R101: `PUSH c` in `IDLE` with `LEN ≤ MAXBITS` (R26): a digit with room is stored at `LEN` and `LEN` grows by 1, every other
cell keeping its content; a non-digit raises `BADCHAR`, a full buffer or not; a digit that does not fit raises
`OverflowError`. In `ERROR` it is discarded; in `BUSY` no command is issued. -/
def Obligations.PushAppendsDigitOrRaises : Prop :=
  ∀ (c : CharCode) (s : State), s.len.toNat ≤ Config.maxBits →
    decode (0x4000 + zext16 c) = .command (.push c) ∧
    (s.stat = .idle → ∀ d, digit c = some d → s.len.toNat < Config.maxBits →
      ∃ m, exec (.push c) s = .next { s with buf := m, len := s.len + 1 } ∧ (s.len + 1).toNat = s.len.toNat + 1 ∧
        m.read (pushAddr s) = some d ∧ ∀ a, a ≠ pushAddr s → m.read a = s.buf.read a) ∧
    (s.stat = .idle → digit c = none → exec (.push c) s = .next { s with
      stat := .error, cause := .invalidInput, sub := .badChar, einfo := zext16 c, done := false }) ∧
    (s.stat = .idle → (digit c).isSome = true → s.len.toNat = Config.maxBits → exec (.push c) s = .next { s with
      stat := .error, cause := .overflow, sub := .noSub, einfo := zext16 c, done := false }) ∧
    (s.stat = .error → exec (.push c) s = .next s) ∧
    (s.stat = .busy → cmdReady s = false)

/-- R151: `RUN` in `IDLE` with a scheme selected and a positive multiple of `k` bits in the buffer starts the transmission:
the ten registers of step 4, symbol 0 loaded, and nothing else written. Otherwise it raises, the errors in the order tested,
each in place of every other write. In `ERROR` it is discarded; in `BUSY` no command is issued. -/
def Obligations.RunStartsTheTransmissionOrRaises : Prop :=
  decode 0x5000 = .command .run ∧
  ∀ s : State,
    (s.stat = .idle → ∀ sc, RunValid s sc → ∃ t, exec .run s = .next t ∧
      t = { s with
        nsym := BitVec.ofNat 9 (s.len.toNat / sc.bits)
        si := 0
        ri := 0
        t := 0
        grp := groupReg s sc.bits 0
        glen := lengthTag sc.bits
        symI := (sc.point Config.levels (groupReg s sc.bits 0)).i
        symQ := (sc.point Config.levels (groupReg s sc.bits 0)).q
        done := false
        stat := .busy } ∧
      busyPin t = true ∧ outValid t = true ∧ cmdReady t = false ∧ donePin t = false) ∧
    (s.stat = .idle → kOf s.sch = none → exec .run s = .next { s with
      stat := .error, cause := .unknownScheme, sub := .noSub, einfo := zext16 s.sch, done := false }) ∧
    (s.stat = .idle → (kOf s.sch).isSome = true → s.len = 0 → exec .run s = .next { s with
      stat := .error, cause := .invalidInput, sub := .empty, einfo := 0, done := false }) ∧
    (s.stat = .idle → ∀ k, kOf s.sch = some k → s.len ≠ 0 → s.len.toNat % k ≠ 0 → exec .run s = .next { s with
      stat := .error, cause := .invalidInput, sub := .notMult, einfo := BitVec.ofNat 16 (s.len.toNat % k), done := false }) ∧
    (s.stat = .error → exec .run s = .next s) ∧
    (s.stat = .busy → cmdReady s = false)

/-- R224: no `RUN`, in any state, raises `InvalidGroupLengthError`. -/
def Obligations.RunNeverRaisesGroupLength : Prop :=
  ∀ (s : State) (r : Trap), runChecked s = .error r → r.cause ≠ .invalidGroupLength

/-! ### The emit step and the output port -/

/-- R152: the emit step, its three branches, at an edge at which the sink accepts the beat. -/
def Obligations.EmitStepAdvancesTheTransmission : Prop :=
  ∀ (s : State) (sc : Scheme), BeatAccepted s → schemeOf s.sch = some sc →
    (s.ri.toNat + 1 < s.nsps.toNat → step s = .next { s with
      edges := s.edges.tail, out := s.out ++ [currentBeat s], t := s.t + 1, ri := s.ri + 1 }) ∧
    (¬ s.ri.toNat + 1 < s.nsps.toNat → s.si.toNat + 1 < s.nsym.toNat → step s = .next { s with
      edges := s.edges.tail
      out := s.out ++ [currentBeat s]
      t := s.t + 1
      ri := 0
      si := s.si + 1
      grp := groupReg s sc.bits (s.si.toNat + 1)
      glen := lengthTag sc.bits
      symI := (sc.point Config.levels (groupReg s sc.bits (s.si.toNat + 1))).i
      symQ := (sc.point Config.levels (groupReg s sc.bits (s.si.toNat + 1))).q }) ∧
    (¬ s.ri.toNat + 1 < s.nsps.toNat → ¬ s.si.toNat + 1 < s.nsym.toNat → step s = .next { s with
      edges := s.edges.tail, out := s.out ++ [currentBeat s], t := s.t + 1, ri := 0, si := s.si + 1, done := true, stat := .idle })

/-- R153: in `BUSY` the output port carries the beat made of the run and datapath registers. -/
def Obligations.OutputPortCarriesTheBeat : Prop :=
  ∀ s : State, s.stat = .busy →
    (outPort s).t = s.t ∧ (outPort s).i = s.symI ∧ (outPort s).q = s.symQ ∧
    ((outPort s).sos = true ↔ s.ri = 0) ∧
    ((outPort s).last = true ↔ (s.si.toNat : Int) = s.nsym.toNat - 1 ∧ (s.ri.toNat : Int) = s.nsps.toNat - 1) ∧
    (outPort s).cplx = cplxOf s.sch

/-- 10_state.md section 9 (R47, R48): `cmd_ready` and `out_valid` follow `STATE`, and the other output fields are 0 while
`out_valid = 0`. -/
def Obligations.HandshakePinsFollowState : Prop :=
  ∀ s : State, (cmdReady s = true ↔ s.stat ≠ .busy) ∧ (outValid s = true ↔ s.stat = .busy) ∧
    (outValid s = false → outPort s = { t := 0, i := 0, q := 0, sos := false, last := false, cplx := false })

/-- 10_state.md section 9 (R48): a beat that the sink does not accept stays offered, unchanged, and nothing else changes. -/
def Obligations.StalledSinkHoldsTheBeat : Prop :=
  ∀ s : State, s.stat = .busy → (edgeNow s).rst = false → (edgeNow s).outReady = false →
    ∃ t, step s = .next t ∧ t = { s with edges := s.edges.tail } ∧ outPort t = outPort s

/-- 70_reset_and_hazards.md section 3 (R243): a sink that never raises `out_ready` holds the block in `BUSY` for ever. -/
def Obligations.SinkThatNeverAcceptsHoldsTheBlock : Prop :=
  ∀ (s : State) (n : Nat), s.stat = .busy → s.edges = [] → s.after.rst = false → s.after.outReady = false →
    Sys2Proof.core.run n s = .next s

/-- R49: the status pins are levels. -/
def Obligations.StatusPinsAreLevels : Prop :=
  ∀ s : State, (errPin s = true ↔ s.stat = .error) ∧ donePin s = s.done ∧ (busyPin s = true ↔ s.stat = .busy)

/-- R44: the status port, every register number. -/
def Obligations.StatusPortReadsTheRegisters : Prop :=
  ∀ s : State,
    srData s 0 = statusWord s ∧ srData s 1 = s.einfo ∧ srData s 2 = s.sch.setWidth 16 ∧ srData s 3 = s.nsps.setWidth 16 ∧
    srData s 4 = s.len.setWidth 16 ∧ srData s 5 = s.nsym.setWidth 16 ∧ srData s 6 = s.si.setWidth 16 ∧
    srData s 7 = s.ri.setWidth 16 ∧ srData s 8 = s.t ∧
    ((srData s 9).extractLsb' 0 4 = s.grp ∧ (srData s 9).extractLsb' 4 3 = s.glen ∧ (srData s 9).extractLsb' 7 9 = 0) ∧
    srData s 10 = s.symI ∧ srData s 11 = s.symQ ∧ ∀ n : BitVec 4, 12 ≤ n.toNat → srData s n = 0

/-- R45: the layout of the `STATUS` word, with the numbers that R45, R28 and R29 give the values of `STATE`, `CAUSE` and
`SUB`. -/
def Obligations.StatusWordLayout : Prop :=
  (∀ s : State,
    (statusWord s).extractLsb' 0 2 = s.stat.code ∧ (statusWord s).getLsbD 2 = s.done ∧
    (statusWord s).getLsbD 3 = cplxOf s.sch ∧ (statusWord s).extractLsb' 4 3 = s.cause.code ∧
    (statusWord s).extractLsb' 7 2 = s.sub.code ∧ (statusWord s).extractLsb' 9 7 = 0) ∧
  (BlockState.code .idle = 0 ∧ BlockState.code .busy = 1 ∧ BlockState.code .error = 2) ∧
  (Cause.code .noError = 0 ∧ Cause.code .invalidInput = 1 ∧ Cause.code .unknownScheme = 2 ∧
    Cause.code .invalidGroupLength = 3 ∧ Cause.code .overflow = 4 ∧ Cause.code .illegalCommand = 5) ∧
  (SubCause.code .noSub = 0 ∧ SubCause.code .empty = 1 ∧ SubCause.code .badChar = 2 ∧ SubCause.code .notMult = 3)

/-! ### Registry, Bit Grouper, Symbol Mapper -/

/-- R170, R171: the Registry, `k_of` and `cplx_of` for all eight codes. -/
def Obligations.RegistryHoldsFiveSchemes : Prop :=
  (schemeOf 0 = some .ook ∧ schemeOf 1 = some .psk2 ∧ schemeOf 2 = some .psk4 ∧ schemeOf 3 = some .qam8 ∧
    schemeOf 4 = some .qam16 ∧ schemeOf 5 = none ∧ schemeOf 6 = none ∧ schemeOf 7 = none) ∧
  (kOf 0 = some 1 ∧ kOf 1 = some 1 ∧ kOf 2 = some 2 ∧ kOf 3 = some 3 ∧ kOf 4 = some 4 ∧ kOf 5 = none ∧ kOf 6 = none ∧
    kOf 7 = none) ∧
  (cplxOf 0 = false ∧ cplxOf 1 = true ∧ cplxOf 2 = true ∧ cplxOf 3 = true ∧ cplxOf 4 = true ∧ cplxOf 5 = false ∧
    cplxOf 6 = false ∧ cplxOf 7 = false) ∧
  (Scheme.name .ook = "ook" ∧ Scheme.name .psk2 = "2psk" ∧ Scheme.name .psk4 = "4psk" ∧ Scheme.name .qam8 = "8qam" ∧
    Scheme.name .qam16 = "16qam")

/-- R102: exactly the codes `0x30` and `0x31` are binary digits. -/
def Obligations.OnlyTwoCodesAreDigits : Prop :=
  ∀ c : CharCode, (digit c = some 0 ↔ c = 0x30) ∧ (digit c = some 1 ↔ c = 0x31) ∧ (digit c = none ↔ c ≠ 0x30 ∧ c ≠ 0x31)

/-- 20_memory.md section 2 (R61, R64), 40_bit_grouper.md section 3 (R103): bit `k − 1 − j` of the group register of symbol `i`
is cell `i·k + j` of the buffer, so the first-transmitted bit is the most significant. Where that cell is below `LEN` and has
been stored, it is the stored bit. The bits from `k` up are 0. -/
def Obligations.GroupBitsAreBufferCellsInOrder : Prop :=
  ∀ (s : State) (sc : Scheme) (i : Nat),
    (∀ j, j < sc.bits → (groupReg s sc.bits i).getLsbD (sc.bits - 1 - j) = (bufBit s (i * sc.bits + j)).getLsbD 0) ∧
    (∀ j b, j < sc.bits → i * sc.bits + j < s.len.toNat → s.buf.read (i * sc.bits + j) = some b →
      (groupReg s sc.bits i).getLsbD (sc.bits - 1 - j) = b.getLsbD 0) ∧
    (∀ j, sc.bits ≤ j → (groupReg s sc.bits i).getLsbD j = false)

/-- The 32 rows of the tables of R123, R124, R125, R127 and R130, in the codes the spec prints. -/
def Obligations.MapReturnsThePrintedRows : Prop :=
  ((mapSymbol 0 1 0).toOption = some ⟨0x0000, 0x0000⟩ ∧ (mapSymbol 0 1 1).toOption = some ⟨0x4000, 0x0000⟩) ∧
  ((mapSymbol 1 1 0).toOption = some ⟨0x4000, 0x0000⟩ ∧ (mapSymbol 1 1 1).toOption = some ⟨0xC000, 0x0000⟩) ∧
  ((mapSymbol 2 2 0).toOption = some ⟨0x2D41, 0x2D41⟩ ∧ (mapSymbol 2 2 1).toOption = some ⟨0x2D41, 0xD2BF⟩ ∧
    (mapSymbol 2 2 2).toOption = some ⟨0xD2BF, 0x2D41⟩ ∧ (mapSymbol 2 2 3).toOption = some ⟨0xD2BF, 0xD2BF⟩) ∧
  ((mapSymbol 3 3 0).toOption = some ⟨0x1000, 0x1000⟩ ∧ (mapSymbol 3 3 1).toOption = some ⟨0x3000, 0x3000⟩ ∧
    (mapSymbol 3 3 2).toOption = some ⟨0x1000, 0xF000⟩ ∧ (mapSymbol 3 3 3).toOption = some ⟨0x3000, 0xD000⟩ ∧
    (mapSymbol 3 3 4).toOption = some ⟨0xF000, 0x1000⟩ ∧ (mapSymbol 3 3 5).toOption = some ⟨0xD000, 0x3000⟩ ∧
    (mapSymbol 3 3 6).toOption = some ⟨0xF000, 0xF000⟩ ∧ (mapSymbol 3 3 7).toOption = some ⟨0xD000, 0xD000⟩) ∧
  ((mapSymbol 4 4 0).toOption = some ⟨0x1000, 0x1000⟩ ∧ (mapSymbol 4 4 1).toOption = some ⟨0x1000, 0x3000⟩ ∧
    (mapSymbol 4 4 2).toOption = some ⟨0x1000, 0xF000⟩ ∧ (mapSymbol 4 4 3).toOption = some ⟨0x1000, 0xD000⟩ ∧
    (mapSymbol 4 4 4).toOption = some ⟨0x3000, 0x1000⟩ ∧ (mapSymbol 4 4 5).toOption = some ⟨0x3000, 0x3000⟩ ∧
    (mapSymbol 4 4 6).toOption = some ⟨0x3000, 0xF000⟩ ∧ (mapSymbol 4 4 7).toOption = some ⟨0x3000, 0xD000⟩ ∧
    (mapSymbol 4 4 8).toOption = some ⟨0xF000, 0x1000⟩ ∧ (mapSymbol 4 4 9).toOption = some ⟨0xF000, 0x3000⟩ ∧
    (mapSymbol 4 4 10).toOption = some ⟨0xF000, 0xF000⟩ ∧ (mapSymbol 4 4 11).toOption = some ⟨0xF000, 0xD000⟩ ∧
    (mapSymbol 4 4 12).toOption = some ⟨0xD000, 0x1000⟩ ∧ (mapSymbol 4 4 13).toOption = some ⟨0xD000, 0x3000⟩ ∧
    (mapSymbol 4 4 14).toOption = some ⟨0xD000, 0xF000⟩ ∧ (mapSymbol 4 4 15).toOption = some ⟨0xD000, 0xD000⟩)

/-- R120: the checks of `map` come first and in this order, then the scheme's own function is applied to the low `k` bits of
the group, the bits above them ignored. -/
def Obligations.MapChecksSchemeThenLength : Prop :=
  ∀ (c glen : BitVec 3) (g : BitVec 4),
    (kOf c = none → mapSymbol c glen g = .error { cause := .unknownScheme, sub := .noSub, info := zext16 c }) ∧
    (∀ k, kOf c = some k → glen.toNat ≠ k →
      mapSymbol c glen g = .error { cause := .invalidGroupLength, sub := .noSub, info := zext16 glen }) ∧
    (c = 0 → glen = 1 → mapSymbol c glen g = .ok (formulaOok Config.levels (g.getLsbD 0))) ∧
    (c = 1 → glen = 1 → mapSymbol c glen g = .ok (formulaPsk2 Config.levels (g.getLsbD 0))) ∧
    (c = 2 → glen = 2 → mapSymbol c glen g = .ok (formulaPsk4 Config.levels (g.getLsbD 1) (g.getLsbD 0))) ∧
    (c = 3 → glen = 3 → mapSymbol c glen g = .ok (formulaQam8 Config.levels (g.getLsbD 2) (g.getLsbD 1) (g.getLsbD 0))) ∧
    (c = 4 → glen = 4 → mapSymbol c glen g =
      .ok (formulaQam16 Config.levels (g.getLsbD 3) (g.getLsbD 2) (g.getLsbD 1) (g.getLsbD 0)))

/-- 41_symbol_mapper.md section 8 (R139, R140): the tables and the formulas agree row by row, for every value of the four
constants. -/
def Obligations.TablesAgreeWithFormulas : Prop :=
  ∀ (l : Config.Levels) (sc : Scheme) (g : BitVec 4), sc.point l g = sc.formula l g

/-- R132: within each scheme distinct groups map to distinct points, for any values of the four constants other than 0 whose
levels are sample codes (R13). -/
def Obligations.EveryTableIsABijection : Prop :=
  ∀ (l : Config.Levels) (sc : Scheme) (g h : BitVec 4),
    l.aOok ≠ 0 → l.pskR ≠ 0 → l.pskD ≠ 0 → l.qamU ≠ 0 → l.fits → g.toNat < 2 ^ sc.bits → h.toNat < 2 ^ sc.bits →
    sc.point l g = sc.point l h → g = h

/-- 41_symbol_mapper.md sections 4 to 6 (R126, R128, R133): in the 4-PSK, 8-QAM and 16-QAM tables nearest neighbours differ in
exactly one bit of their groups. -/
def Obligations.NearestNeighboursDifferInOneBit : Prop :=
  ∀ (sc : Scheme) (g h : BitVec 4), (sc = .psk4 ∨ sc = .qam8 ∨ sc = .qam16) → nearest Config.levels sc g h →
    bitDistance g h = 1

/-! ### The whole machine -/

/-- The invariants of R43 (items 1 to 5), with the canonical form of the buffer, the error record of R225, the unreachability of
cause 3 of R224 and the history of complete transmissions of R226, are kept by every step from every state that has them. -/
def Obligations.StepKeepsTheInvariant : Prop :=
  ∀ s t : State, Inv s → step s = .next t → Inv t

/-- The state after reset has the invariants. -/
def Obligations.ResetMeetsTheInvariant : Prop := Inv State.reset

/-- From a state with the invariants every step answers a next state: the model's one fault is not reached (R152: the emit step
"raises no error"). -/
def Obligations.StepNeverStopsUnderTheInvariant : Prop :=
  ∀ s : State, Inv s → ∃ t, step s = .next t

/-- R223: all transitions of `STATE`, each with the event that causes it. -/
def Obligations.StateChangesOnlyAsListed : Prop :=
  ∀ s t : State, Inv s → step s = .next t →
    ((edgeNow s).rst = true → t.stat = .idle) ∧
    ((edgeNow s).rst = false →
      (s.stat = .idle →
        (t.stat = .busy ↔ ∃ w ws sc, Offers s w ws ∧ decode w = .command .run ∧ RunValid s sc) ∧
        (t.stat = .error ↔ ∃ w ws, Offers s w ws ∧ ((decode w).instr? = none ∨
          (∃ c, decode w = .command (.push c) ∧ (digit c = none ∨ s.len.toNat = Config.maxBits)) ∨
          (decode w = .command .run ∧ ¬ ∃ sc, RunValid s sc)))) ∧
      (s.stat = .busy → t.stat ≠ .error ∧ (t.stat = .idle ↔ (edgeNow s).outReady = true ∧ beatLast s = true)) ∧
      (s.stat = .error → t.stat ≠ .busy ∧ (t.stat = .idle ↔ ∃ w ws, Offers s w ws ∧ decode w = .command .clr)))

/-- R52: `DONE` is set by the emit step of the last beat and cleared by `RUN` entering `BUSY`, by `CLR`, by every trap and by
reset; nothing else changes it. -/
def Obligations.DoneFollowsTheLastBeat : Prop :=
  ∀ s t : State, Inv s → step s = .next t →
    (t.done = true ↔ (edgeNow s).rst = false ∧
      ((BeatAccepted s ∧ beatLast s = true) ∨
       (s.done = true ∧ t.stat = .idle ∧ ¬ ∃ w ws, Offers s w ws ∧ decode w = .command .clr)))

/-- R74: no step in `BUSY`, reset aside, changes `BUF`, `LEN`, `SCH` or `NSPS`. -/
def Obligations.InputsFrozenDuringTransmission : Prop :=
  ∀ s t : State, s.stat = .busy → (edgeNow s).rst = false → step s = .next t →
    t.buf = s.buf ∧ t.len = s.len ∧ t.sch = s.sch ∧ t.nsps = s.nsps

/-- R41, R207 (10_state.md section 7): `OUT` is append-only, reset aside: a step adds the beat offered when the sink accepts
it, and no other step adds anything. -/
def Obligations.OutputHistoryIsAppendOnly : Prop :=
  ∀ s t : State, (edgeNow s).rst = false → step s = .next t →
    (BeatAccepted s → t.out = s.out ++ [outPort s]) ∧ (¬ BeatAccepted s → t.out = s.out)

/-- R206: a step that enters `ERROR` does the trap's five writes and no other: every register, the buffer and `OUT` keep the
values they had before the command. -/
def Obligations.TrapWritesOnlyTheErrorRegisters : Prop :=
  ∀ s t : State, s.stat ≠ .error → step s = .next t → t.stat = .error →
    s.stat = .idle ∧ t.cause ≠ .noError ∧
    ∃ w ws, Offers s w ws ∧
      t = { issued s ws with stat := .error, cause := t.cause, sub := t.sub, einfo := t.einfo, done := false }

/-- R161: a `RUN` that passes validation, followed by all its emit steps with a sink that accepts every beat, appends exactly
the list of R161 to `OUT` and leaves the state R161 gives. -/
def Obligations.RunEmitsTheWholeTransmission : Prop :=
  ∀ (s : State) (sc : Scheme), Inv s → s.stat = .idle → RunValid s sc → ReadySink s →
    ∃ s1, exec .run s = .next s1 ∧
      Sys2Proof.core.run (s.len.toNat / sc.bits * s.nsps.toNat) s1 = .next (afterTransmission sc s)

/-- R160: a transmission leaves `BUF`, `LEN`, `SCH` and `NSPS` as they were; a second `RUN` with nothing changed in between
emits the same beats again, field for field, and ends in the same state but for the longer `OUT`. -/
def Obligations.RepeatedRunRepeatsTheSignal : Prop :=
  ∀ (s : State) (sc : Scheme), Inv s → s.stat = .idle → RunValid s sc → ReadySink s →
    ∃ s1 u u1 bs,
      exec .run s = .next s1 ∧ Sys2Proof.core.run (s.len.toNat / sc.bits * s.nsps.toNat) s1 = .next u ∧
      u.buf = s.buf ∧ u.len = s.len ∧ u.sch = s.sch ∧ u.nsps = s.nsps ∧ u.out = s.out ++ bs ∧
      exec .run u = .next u1 ∧ Sys2Proof.core.run (s.len.toNat / sc.bits * s.nsps.toNat) u1 =
        .next { u with out := s.out ++ (bs ++ bs) }

/-- 42_waveform_synth.md section 4 (R154 to R156, R158): the list of R161 has `N·n` beats, beat `j·n + r` carries symbol `j`, and
its beats with `sos = 1` are the `N` symbols in order. -/
def Obligations.SignalHasOneHeldSymbolPerGroup : Prop :=
  ∀ (s : State) (sc : Scheme) (n N : Nat), 0 < n →
    (signalBeats sc s n N).length = N * n ∧
    (∀ j r, j < N → r < n → (signalBeats sc s n N)[j * n + r]? = some (signalBeat sc s n N j r)) ∧
    symbolList (signalBeats sc s n N) = (List.range N).map fun j => sc.point Config.levels (groupReg s sc.bits j)

/-- 00_scope.md section 6 (R11, R12): pauses of the host and stalls of the sink decide only when steps happen: what a timed run
without reset reaches, the untimed machine reaches too, in no more steps. The forgetting of the input fields is the model's
(log entry 3). -/
def Obligations.InputTimingOnlyDelays : Prop :=
  ∀ (es : List EdgeInput) (s t : State), (∀ e ∈ es, e.rst = false) →
    Sys2Proof.core.run es.length { s with edges := es } = .next t →
    ∃ m, m ≤ es.length ∧ Sys2Proof.core.run m (untimed s) = .next (untimed t)

/-- R75: no rule reads a cell at or above `LEN`: two states that differ only in such cells step alike, to states that again
differ only in such cells. -/
def Obligations.CellsAboveLenNeverMatter : Prop :=
  ∀ s u t : State, AgreeBelowLen s u → step s = .next t → ∃ v, step u = .next v ∧ AgreeBelowLen t v

/-! ### The assembler notation -/

/-- 30_encoding.md section 4. The rows of R92: the words of each line, for every operand the row admits, and that `SETN`
rejects every other number. The expansions of R93: `BITS` is one `PUSH` for each character, left to right; `SEND` and
`SENDARGS` are `CLR`, `SETSCH`, `SETN`, those `PUSH`es, `RUN`, the separators of `SENDARGS` not pushed. A quoted character is
its ASCII code (R95). Every line but `.word` gives legal words only. -/
def Obligations.AssemblerEmitsLegalWords : Prop :=
  (assemble .nop = some [0x0000] ∧ assemble .clr = some [0x1000] ∧ assemble .run = some [0x5000]) ∧
  (assemble (.setsch (.name "ook")) = some [0x2000] ∧ assemble (.setsch (.name "2psk")) = some [0x2001] ∧
    assemble (.setsch (.name "4psk")) = some [0x2002] ∧ assemble (.setsch (.name "8qam")) = some [0x2003] ∧
    assemble (.setsch (.name "16qam")) = some [0x2004]) ∧
  (∀ n, n ≤ 7 → assemble (.setsch (.number n)) = some [0x2000 + BitVec.ofNat 16 n]) ∧
  (∀ n, 1 ≤ n → n ≤ 255 → assemble (.setn n) = some [0x3000 + BitVec.ofNat 16 n]) ∧
  (∀ n, n = 0 ∨ 255 < n → assemble (.setn n) = none) ∧
  (∀ c : Char, c.toNat < 128 → assemble (.push (.quoted c)) = some [0x4000 + BitVec.ofNat 16 c.toNat]) ∧
  (∀ n, n ≤ 255 → assemble (.push (.number n)) = some [0x4000 + BitVec.ofNat 16 n]) ∧
  (∀ n, n < 2 ^ 16 → assemble (.word n) = some [BitVec.ofNat 16 n]) ∧
  (∀ str : List Char, (∀ c ∈ str, c.toNat < 128) →
    assemble (.bits str) = some (str.map fun c => 0x4000 + BitVec.ofNat 16 c.toNat)) ∧
  (∀ (sch : SchemeOperand) (n : Nat) (str : List Char) (ws wn : Word),
    assemble (.setsch sch) = some [ws] → assemble (.setn n) = some [wn] → (∀ c ∈ str, c.toNat < 128) →
    assemble (.send sch n str) =
      some ([0x1000, ws, wn] ++ (str.map fun c => 0x4000 + BitVec.ofNat 16 c.toNat) ++ [0x5000])) ∧
  (∀ (sch : SchemeOperand) (n : Nat) (args : List (List Char)) (ws wn : Word),
    assemble (.setsch sch) = some [ws] → assemble (.setn n) = some [wn] → (∀ str ∈ args, ∀ c ∈ str, c.toNat < 128) →
    assemble (.sendargs sch n args) = some ([0x1000, ws, wn] ++
      (args.flatMap fun str => str.map fun c => 0x4000 + BitVec.ofNat 16 c.toNat) ++ [0x5000])) ∧
  (∀ (l : AsmLine) (ws : List Word), (∀ n, l ≠ .word n) → assemble l = some ws → ∀ w ∈ ws, ∃ i, decode w = .command i)
end

