-- ==== Sys2Proof/Laws/Decode.lean ====
section
/-! SUPPORT. What the decoder can answer, once. -/

namespace Sys2Proof

/-- Everything `decode` can answer (R94). -/
theorem decode_cases (w : Word) :
    (decode w = .command .nop ∧ rzField w = 0 ∧ opField w = 0 ∧ immField w = 0) ∨
    (decode w = .command .clr ∧ rzField w = 0 ∧ opField w = 1 ∧ immField w = 0) ∨
    (decode w = .command (.setsch (w.extractLsb' 0 3)) ∧ rzField w = 0 ∧ opField w = 2 ∧ w.extractLsb' 3 5 = 0) ∨
    (decode w = .command (.setn (immField w)) ∧ rzField w = 0 ∧ opField w = 3 ∧ immField w ≠ 0) ∨
    (decode w = .command (.push (immField w)) ∧ rzField w = 0 ∧ opField w = 4) ∨
    (decode w = .command .run ∧ rzField w = 0 ∧ opField w = 5 ∧ immField w = 0) ∨
    (∃ r, decode w = .illegal w r) := by
  have key : ∀ n : Nat, (opField w).toNat = n → opField w = BitVec.ofNat 4 n := by
    intro n h; rw [← h]; simp
  unfold decode
  by_cases hz : rzField w = 0
  · rw [if_neg (by simpa using hz)]
    split
    · next h => by_cases hi : immField w = 0#8 <;> simp [decodePlain, hi, hz, key _ h]
    · next h => by_cases hi : immField w = 0#8 <;> simp [decodePlain, hi, hz, key _ h]
    · next h => by_cases hi : BitVec.extractLsb' 3 5 w = 0#5 <;> simp [decodeSetsch, hi, hz, key _ h]
    · next h => by_cases hi : immField w = 0#8 <;> simp [decodeSetn, hi, hz, key _ h]
    · next h => simp [hz, key _ h]
    · next h => by_cases hi : immField w = 0#8 <;> simp [decodePlain, hi, hz, key _ h]
    · simp
  · rw [if_pos (by simpa using hz)]; simp

/-- The decoder gives well-formed commands only: `SETN 0` is never among them (R89). -/
theorem decode_wellFormed {w : Word} {i : Instr} (h : decode w = .command i) : i.wellFormed = true := by
  rcases decode_cases w with ⟨e, -⟩ | ⟨e, -⟩ | ⟨e, -⟩ | ⟨e, -, -, hn⟩ | ⟨e, -⟩ | ⟨e, -⟩ | ⟨r, e⟩ <;>
    rw [e] at h <;> cases h <;> simp_all [Instr.wellFormed]

/-- An illegal answer carries the word itself. -/
theorem decode_illegal_word {w v : Word} {r : RejectReason} (h : decode w = .illegal v r) : v = w := by
  rcases decode_cases w with ⟨e, -⟩ | ⟨e, -⟩ | ⟨e, -⟩ | ⟨e, -⟩ | ⟨e, -⟩ | ⟨e, -⟩ | ⟨r, e⟩ <;> rw [e] at h <;> cases h
  rfl

end Sys2Proof
end

