-- ==== Sys2Proof/Laws/State.lean ====
section
/-! SUPPORT. One lemma per field per update, true by rfl: what each state-changing operation leaves in each register. A later
proof rewrites with these and never unfolds a record update. -/

namespace Sys2Proof.Machine

@[simp] theorem trap_sch (r : Trap) (s : State) : (trap r s).sch = s.sch := rfl
@[simp] theorem trap_nsps (r : Trap) (s : State) : (trap r s).nsps = s.nsps := rfl
@[simp] theorem trap_len (r : Trap) (s : State) : (trap r s).len = s.len := rfl
@[simp] theorem trap_buf (r : Trap) (s : State) : (trap r s).buf = s.buf := rfl
@[simp] theorem trap_stat (r : Trap) (s : State) : (trap r s).stat = .error := rfl
@[simp] theorem trap_done (r : Trap) (s : State) : (trap r s).done = false := rfl
@[simp] theorem trap_cause (r : Trap) (s : State) : (trap r s).cause = r.cause := rfl
@[simp] theorem trap_sub (r : Trap) (s : State) : (trap r s).sub = r.sub := rfl
@[simp] theorem trap_einfo (r : Trap) (s : State) : (trap r s).einfo = r.info := rfl
@[simp] theorem trap_nsym (r : Trap) (s : State) : (trap r s).nsym = s.nsym := rfl
@[simp] theorem trap_si (r : Trap) (s : State) : (trap r s).si = s.si := rfl
@[simp] theorem trap_ri (r : Trap) (s : State) : (trap r s).ri = s.ri := rfl
@[simp] theorem trap_t (r : Trap) (s : State) : (trap r s).t = s.t := rfl
@[simp] theorem trap_grp (r : Trap) (s : State) : (trap r s).grp = s.grp := rfl
@[simp] theorem trap_glen (r : Trap) (s : State) : (trap r s).glen = s.glen := rfl
@[simp] theorem trap_symI (r : Trap) (s : State) : (trap r s).symI = s.symI := rfl
@[simp] theorem trap_symQ (r : Trap) (s : State) : (trap r s).symQ = s.symQ := rfl
@[simp] theorem trap_out (r : Trap) (s : State) : (trap r s).out = s.out := rfl
@[simp] theorem trap_cmds (r : Trap) (s : State) : (trap r s).cmds = s.cmds := rfl
@[simp] theorem trap_edges (r : Trap) (s : State) : (trap r s).edges = s.edges := rfl
@[simp] theorem trap_after (r : Trap) (s : State) : (trap r s).after = s.after := rfl

@[simp] theorem clearToIdle_sch (s : State) : (clearToIdle s).sch = s.sch := rfl
@[simp] theorem clearToIdle_nsps (s : State) : (clearToIdle s).nsps = s.nsps := rfl
@[simp] theorem clearToIdle_len (s : State) : (clearToIdle s).len = 0 := rfl
@[simp] theorem clearToIdle_buf (s : State) : (clearToIdle s).buf = s.buf := rfl
@[simp] theorem clearToIdle_stat (s : State) : (clearToIdle s).stat = .idle := rfl
@[simp] theorem clearToIdle_done (s : State) : (clearToIdle s).done = false := rfl
@[simp] theorem clearToIdle_cause (s : State) : (clearToIdle s).cause = .noError := rfl
@[simp] theorem clearToIdle_sub (s : State) : (clearToIdle s).sub = .noSub := rfl
@[simp] theorem clearToIdle_einfo (s : State) : (clearToIdle s).einfo = 0 := rfl
@[simp] theorem clearToIdle_nsym (s : State) : (clearToIdle s).nsym = s.nsym := rfl
@[simp] theorem clearToIdle_si (s : State) : (clearToIdle s).si = s.si := rfl
@[simp] theorem clearToIdle_ri (s : State) : (clearToIdle s).ri = s.ri := rfl
@[simp] theorem clearToIdle_t (s : State) : (clearToIdle s).t = s.t := rfl
@[simp] theorem clearToIdle_grp (s : State) : (clearToIdle s).grp = s.grp := rfl
@[simp] theorem clearToIdle_glen (s : State) : (clearToIdle s).glen = s.glen := rfl
@[simp] theorem clearToIdle_symI (s : State) : (clearToIdle s).symI = s.symI := rfl
@[simp] theorem clearToIdle_symQ (s : State) : (clearToIdle s).symQ = s.symQ := rfl
@[simp] theorem clearToIdle_out (s : State) : (clearToIdle s).out = s.out := rfl
@[simp] theorem clearToIdle_cmds (s : State) : (clearToIdle s).cmds = s.cmds := rfl
@[simp] theorem clearToIdle_edges (s : State) : (clearToIdle s).edges = s.edges := rfl
@[simp] theorem clearToIdle_after (s : State) : (clearToIdle s).after = s.after := rfl

@[simp] theorem appendBit_sch (b : Bit) (s : State) : (appendBit b s).sch = s.sch := rfl
@[simp] theorem appendBit_nsps (b : Bit) (s : State) : (appendBit b s).nsps = s.nsps := rfl
@[simp] theorem appendBit_len (b : Bit) (s : State) : (appendBit b s).len = s.len + 1 := rfl
@[simp] theorem appendBit_buf (b : Bit) (s : State) : (appendBit b s).buf = s.buf.write (pushAddr s) b := rfl
@[simp] theorem appendBit_stat (b : Bit) (s : State) : (appendBit b s).stat = s.stat := rfl
@[simp] theorem appendBit_done (b : Bit) (s : State) : (appendBit b s).done = s.done := rfl
@[simp] theorem appendBit_cause (b : Bit) (s : State) : (appendBit b s).cause = s.cause := rfl
@[simp] theorem appendBit_sub (b : Bit) (s : State) : (appendBit b s).sub = s.sub := rfl
@[simp] theorem appendBit_einfo (b : Bit) (s : State) : (appendBit b s).einfo = s.einfo := rfl
@[simp] theorem appendBit_nsym (b : Bit) (s : State) : (appendBit b s).nsym = s.nsym := rfl
@[simp] theorem appendBit_si (b : Bit) (s : State) : (appendBit b s).si = s.si := rfl
@[simp] theorem appendBit_ri (b : Bit) (s : State) : (appendBit b s).ri = s.ri := rfl
@[simp] theorem appendBit_t (b : Bit) (s : State) : (appendBit b s).t = s.t := rfl
@[simp] theorem appendBit_grp (b : Bit) (s : State) : (appendBit b s).grp = s.grp := rfl
@[simp] theorem appendBit_glen (b : Bit) (s : State) : (appendBit b s).glen = s.glen := rfl
@[simp] theorem appendBit_symI (b : Bit) (s : State) : (appendBit b s).symI = s.symI := rfl
@[simp] theorem appendBit_symQ (b : Bit) (s : State) : (appendBit b s).symQ = s.symQ := rfl
@[simp] theorem appendBit_out (b : Bit) (s : State) : (appendBit b s).out = s.out := rfl
@[simp] theorem appendBit_cmds (b : Bit) (s : State) : (appendBit b s).cmds = s.cmds := rfl
@[simp] theorem appendBit_edges (b : Bit) (s : State) : (appendBit b s).edges = s.edges := rfl
@[simp] theorem appendBit_after (b : Bit) (s : State) : (appendBit b s).after = s.after := rfl

@[simp] theorem appendBeat_sch (b : Beat) (s : State) : (appendBeat b s).sch = s.sch := rfl
@[simp] theorem appendBeat_nsps (b : Beat) (s : State) : (appendBeat b s).nsps = s.nsps := rfl
@[simp] theorem appendBeat_len (b : Beat) (s : State) : (appendBeat b s).len = s.len := rfl
@[simp] theorem appendBeat_buf (b : Beat) (s : State) : (appendBeat b s).buf = s.buf := rfl
@[simp] theorem appendBeat_stat (b : Beat) (s : State) : (appendBeat b s).stat = s.stat := rfl
@[simp] theorem appendBeat_done (b : Beat) (s : State) : (appendBeat b s).done = s.done := rfl
@[simp] theorem appendBeat_cause (b : Beat) (s : State) : (appendBeat b s).cause = s.cause := rfl
@[simp] theorem appendBeat_sub (b : Beat) (s : State) : (appendBeat b s).sub = s.sub := rfl
@[simp] theorem appendBeat_einfo (b : Beat) (s : State) : (appendBeat b s).einfo = s.einfo := rfl
@[simp] theorem appendBeat_nsym (b : Beat) (s : State) : (appendBeat b s).nsym = s.nsym := rfl
@[simp] theorem appendBeat_si (b : Beat) (s : State) : (appendBeat b s).si = s.si := rfl
@[simp] theorem appendBeat_ri (b : Beat) (s : State) : (appendBeat b s).ri = s.ri := rfl
@[simp] theorem appendBeat_t (b : Beat) (s : State) : (appendBeat b s).t = s.t := rfl
@[simp] theorem appendBeat_grp (b : Beat) (s : State) : (appendBeat b s).grp = s.grp := rfl
@[simp] theorem appendBeat_glen (b : Beat) (s : State) : (appendBeat b s).glen = s.glen := rfl
@[simp] theorem appendBeat_symI (b : Beat) (s : State) : (appendBeat b s).symI = s.symI := rfl
@[simp] theorem appendBeat_symQ (b : Beat) (s : State) : (appendBeat b s).symQ = s.symQ := rfl
@[simp] theorem appendBeat_out (b : Beat) (s : State) : (appendBeat b s).out = s.out ++ [b] := rfl
@[simp] theorem appendBeat_cmds (b : Beat) (s : State) : (appendBeat b s).cmds = s.cmds := rfl
@[simp] theorem appendBeat_edges (b : Beat) (s : State) : (appendBeat b s).edges = s.edges := rfl
@[simp] theorem appendBeat_after (b : Beat) (s : State) : (appendBeat b s).after = s.after := rfl

@[simp] theorem acceptBeat_sch (s : State) : (acceptBeat s).sch = s.sch := rfl
@[simp] theorem acceptBeat_nsps (s : State) : (acceptBeat s).nsps = s.nsps := rfl
@[simp] theorem acceptBeat_len (s : State) : (acceptBeat s).len = s.len := rfl
@[simp] theorem acceptBeat_buf (s : State) : (acceptBeat s).buf = s.buf := rfl
@[simp] theorem acceptBeat_stat (s : State) : (acceptBeat s).stat = s.stat := rfl
@[simp] theorem acceptBeat_done (s : State) : (acceptBeat s).done = s.done := rfl
@[simp] theorem acceptBeat_cause (s : State) : (acceptBeat s).cause = s.cause := rfl
@[simp] theorem acceptBeat_sub (s : State) : (acceptBeat s).sub = s.sub := rfl
@[simp] theorem acceptBeat_einfo (s : State) : (acceptBeat s).einfo = s.einfo := rfl
@[simp] theorem acceptBeat_nsym (s : State) : (acceptBeat s).nsym = s.nsym := rfl
@[simp] theorem acceptBeat_si (s : State) : (acceptBeat s).si = s.si := rfl
@[simp] theorem acceptBeat_ri (s : State) : (acceptBeat s).ri = s.ri := rfl
@[simp] theorem acceptBeat_t (s : State) : (acceptBeat s).t = s.t + 1 := rfl
@[simp] theorem acceptBeat_grp (s : State) : (acceptBeat s).grp = s.grp := rfl
@[simp] theorem acceptBeat_glen (s : State) : (acceptBeat s).glen = s.glen := rfl
@[simp] theorem acceptBeat_symI (s : State) : (acceptBeat s).symI = s.symI := rfl
@[simp] theorem acceptBeat_symQ (s : State) : (acceptBeat s).symQ = s.symQ := rfl
@[simp] theorem acceptBeat_out (s : State) : (acceptBeat s).out = s.out ++ [currentBeat s] := rfl
@[simp] theorem acceptBeat_cmds (s : State) : (acceptBeat s).cmds = s.cmds := rfl
@[simp] theorem acceptBeat_edges (s : State) : (acceptBeat s).edges = s.edges := rfl
@[simp] theorem acceptBeat_after (s : State) : (acceptBeat s).after = s.after := rfl

@[simp] theorem finishTransmission_sch (s : State) : (finishTransmission s).sch = s.sch := rfl
@[simp] theorem finishTransmission_nsps (s : State) : (finishTransmission s).nsps = s.nsps := rfl
@[simp] theorem finishTransmission_len (s : State) : (finishTransmission s).len = s.len := rfl
@[simp] theorem finishTransmission_buf (s : State) : (finishTransmission s).buf = s.buf := rfl
@[simp] theorem finishTransmission_stat (s : State) : (finishTransmission s).stat = .idle := rfl
@[simp] theorem finishTransmission_done (s : State) : (finishTransmission s).done = true := rfl
@[simp] theorem finishTransmission_cause (s : State) : (finishTransmission s).cause = s.cause := rfl
@[simp] theorem finishTransmission_sub (s : State) : (finishTransmission s).sub = s.sub := rfl
@[simp] theorem finishTransmission_einfo (s : State) : (finishTransmission s).einfo = s.einfo := rfl
@[simp] theorem finishTransmission_nsym (s : State) : (finishTransmission s).nsym = s.nsym := rfl
@[simp] theorem finishTransmission_si (s : State) : (finishTransmission s).si = s.si + 1 := rfl
@[simp] theorem finishTransmission_ri (s : State) : (finishTransmission s).ri = 0 := rfl
@[simp] theorem finishTransmission_t (s : State) : (finishTransmission s).t = s.t + 1 := rfl
@[simp] theorem finishTransmission_grp (s : State) : (finishTransmission s).grp = s.grp := rfl
@[simp] theorem finishTransmission_glen (s : State) : (finishTransmission s).glen = s.glen := rfl
@[simp] theorem finishTransmission_symI (s : State) : (finishTransmission s).symI = s.symI := rfl
@[simp] theorem finishTransmission_symQ (s : State) : (finishTransmission s).symQ = s.symQ := rfl
@[simp] theorem finishTransmission_out (s : State) : (finishTransmission s).out = s.out ++ [currentBeat s] := rfl
@[simp] theorem finishTransmission_cmds (s : State) : (finishTransmission s).cmds = s.cmds := rfl
@[simp] theorem finishTransmission_edges (s : State) : (finishTransmission s).edges = s.edges := rfl
@[simp] theorem finishTransmission_after (s : State) : (finishTransmission s).after = s.after := rfl

@[simp] theorem resetBlock_sch (s : State) : (resetBlock s).sch = 7 := rfl
@[simp] theorem resetBlock_nsps (s : State) : (resetBlock s).nsps = 1 := rfl
@[simp] theorem resetBlock_len (s : State) : (resetBlock s).len = 0 := rfl
@[simp] theorem resetBlock_buf (s : State) : (resetBlock s).buf = [] := rfl
@[simp] theorem resetBlock_stat (s : State) : (resetBlock s).stat = .idle := rfl
@[simp] theorem resetBlock_done (s : State) : (resetBlock s).done = false := rfl
@[simp] theorem resetBlock_cause (s : State) : (resetBlock s).cause = .noError := rfl
@[simp] theorem resetBlock_sub (s : State) : (resetBlock s).sub = .noSub := rfl
@[simp] theorem resetBlock_einfo (s : State) : (resetBlock s).einfo = 0 := rfl
@[simp] theorem resetBlock_nsym (s : State) : (resetBlock s).nsym = 0 := rfl
@[simp] theorem resetBlock_si (s : State) : (resetBlock s).si = 0 := rfl
@[simp] theorem resetBlock_ri (s : State) : (resetBlock s).ri = 0 := rfl
@[simp] theorem resetBlock_t (s : State) : (resetBlock s).t = 0 := rfl
@[simp] theorem resetBlock_grp (s : State) : (resetBlock s).grp = 0 := rfl
@[simp] theorem resetBlock_glen (s : State) : (resetBlock s).glen = 0 := rfl
@[simp] theorem resetBlock_symI (s : State) : (resetBlock s).symI = 0 := rfl
@[simp] theorem resetBlock_symQ (s : State) : (resetBlock s).symQ = 0 := rfl
@[simp] theorem resetBlock_out (s : State) : (resetBlock s).out = [] := rfl
@[simp] theorem resetBlock_cmds (s : State) : (resetBlock s).cmds = s.cmds := rfl
@[simp] theorem resetBlock_edges (s : State) : (resetBlock s).edges = s.edges := rfl
@[simp] theorem resetBlock_after (s : State) : (resetBlock s).after = s.after := rfl

@[simp] theorem dropEdge_sch (s : State) : (dropEdge s).sch = s.sch := rfl
@[simp] theorem dropEdge_nsps (s : State) : (dropEdge s).nsps = s.nsps := rfl
@[simp] theorem dropEdge_len (s : State) : (dropEdge s).len = s.len := rfl
@[simp] theorem dropEdge_buf (s : State) : (dropEdge s).buf = s.buf := rfl
@[simp] theorem dropEdge_stat (s : State) : (dropEdge s).stat = s.stat := rfl
@[simp] theorem dropEdge_done (s : State) : (dropEdge s).done = s.done := rfl
@[simp] theorem dropEdge_cause (s : State) : (dropEdge s).cause = s.cause := rfl
@[simp] theorem dropEdge_sub (s : State) : (dropEdge s).sub = s.sub := rfl
@[simp] theorem dropEdge_einfo (s : State) : (dropEdge s).einfo = s.einfo := rfl
@[simp] theorem dropEdge_nsym (s : State) : (dropEdge s).nsym = s.nsym := rfl
@[simp] theorem dropEdge_si (s : State) : (dropEdge s).si = s.si := rfl
@[simp] theorem dropEdge_ri (s : State) : (dropEdge s).ri = s.ri := rfl
@[simp] theorem dropEdge_t (s : State) : (dropEdge s).t = s.t := rfl
@[simp] theorem dropEdge_grp (s : State) : (dropEdge s).grp = s.grp := rfl
@[simp] theorem dropEdge_glen (s : State) : (dropEdge s).glen = s.glen := rfl
@[simp] theorem dropEdge_symI (s : State) : (dropEdge s).symI = s.symI := rfl
@[simp] theorem dropEdge_symQ (s : State) : (dropEdge s).symQ = s.symQ := rfl
@[simp] theorem dropEdge_out (s : State) : (dropEdge s).out = s.out := rfl
@[simp] theorem dropEdge_cmds (s : State) : (dropEdge s).cmds = s.cmds := rfl
@[simp] theorem dropEdge_edges (s : State) : (dropEdge s).edges = s.edges.tail := rfl
@[simp] theorem dropEdge_after (s : State) : (dropEdge s).after = s.after := rfl

@[simp] theorem issued_sch (ws : List Word) (s : State) : (issued s ws).sch = s.sch := rfl
@[simp] theorem issued_nsps (ws : List Word) (s : State) : (issued s ws).nsps = s.nsps := rfl
@[simp] theorem issued_len (ws : List Word) (s : State) : (issued s ws).len = s.len := rfl
@[simp] theorem issued_buf (ws : List Word) (s : State) : (issued s ws).buf = s.buf := rfl
@[simp] theorem issued_stat (ws : List Word) (s : State) : (issued s ws).stat = s.stat := rfl
@[simp] theorem issued_done (ws : List Word) (s : State) : (issued s ws).done = s.done := rfl
@[simp] theorem issued_cause (ws : List Word) (s : State) : (issued s ws).cause = s.cause := rfl
@[simp] theorem issued_sub (ws : List Word) (s : State) : (issued s ws).sub = s.sub := rfl
@[simp] theorem issued_einfo (ws : List Word) (s : State) : (issued s ws).einfo = s.einfo := rfl
@[simp] theorem issued_nsym (ws : List Word) (s : State) : (issued s ws).nsym = s.nsym := rfl
@[simp] theorem issued_si (ws : List Word) (s : State) : (issued s ws).si = s.si := rfl
@[simp] theorem issued_ri (ws : List Word) (s : State) : (issued s ws).ri = s.ri := rfl
@[simp] theorem issued_t (ws : List Word) (s : State) : (issued s ws).t = s.t := rfl
@[simp] theorem issued_grp (ws : List Word) (s : State) : (issued s ws).grp = s.grp := rfl
@[simp] theorem issued_glen (ws : List Word) (s : State) : (issued s ws).glen = s.glen := rfl
@[simp] theorem issued_symI (ws : List Word) (s : State) : (issued s ws).symI = s.symI := rfl
@[simp] theorem issued_symQ (ws : List Word) (s : State) : (issued s ws).symQ = s.symQ := rfl
@[simp] theorem issued_out (ws : List Word) (s : State) : (issued s ws).out = s.out := rfl
@[simp] theorem issued_cmds (ws : List Word) (s : State) : (issued s ws).cmds = ws := rfl
@[simp] theorem issued_edges (ws : List Word) (s : State) : (issued s ws).edges = s.edges.tail := rfl
@[simp] theorem issued_after (ws : List Word) (s : State) : (issued s ws).after = s.after := rfl

end Sys2Proof.Machine
end

