-- ==== Sys2Proof/Laws/Memory.lean ====
section
/-! SUPPORT. The laws of the bit buffer: a read after a write, and that every operation on it keeps the canonical form. -/

namespace Sys2Proof.Machine

@[simp] theorem memory_read_nil (a : Nat) : Memory.read [] a = none := rfl

@[simp] theorem memory_read_write_same (m : Memory) (a : Nat) (b : Bit) : (m.write a b).read a = some b := by
  induction m with
  | nil => simp [Memory.write, Memory.read]
  | cons c r ih =>
    obtain ⟨x, v⟩ := c
    rw [Memory.write]
    split
    · simp [Memory.read]
    · split
      · simp [Memory.read]
      · next hne => simp [Memory.read, hne, ih]

theorem memory_read_write_other (m : Memory) {a c : Nat} (b : Bit) (h : c ≠ a) : (m.write a b).read c = m.read c := by
  induction m with
  | nil => simp [Memory.write, Memory.read, h]
  | cons d r ih =>
    obtain ⟨x, v⟩ := d
    rw [Memory.write]
    split
    · simp [Memory.read, h]
    · split
      · next heq => subst heq; simp [Memory.read, h]
      · simp [Memory.read, ih]

/-- The cells after a write are the written one and cells that were there. -/
theorem memory_mem_write {m : Memory} {a : Nat} {b : Bit} {c : BitCell} (h : c ∈ m.write a b) : c = (a, b) ∨ c ∈ m := by
  induction m with
  | nil => simpa [Memory.write] using h
  | cons d r ih =>
    obtain ⟨x, v⟩ := d
    rw [Memory.write] at h
    split at h
    · simpa using h
    · split at h
      · rcases List.mem_cons.1 h with h | h
        · exact .inl h
        · exact .inr (List.mem_cons_of_mem _ h)
      · rcases List.mem_cons.1 h with h | h
        · exact .inr (h ▸ List.mem_cons_self)
        · exact (ih h).imp id (List.mem_cons_of_mem _)

theorem memory_write_sorted {m : Memory} (h : m.Pairwise fun x y => x.1 < y.1) (a : Nat) (b : Bit) :
    (m.write a b).Pairwise fun x y => x.1 < y.1 := by
  induction m with
  | nil => simp [Memory.write]
  | cons d r ih =>
    obtain ⟨x, v⟩ := d
    obtain ⟨hx, hr⟩ := List.pairwise_cons.1 h
    rw [Memory.write]
    split
    · next hlt =>
      refine List.pairwise_cons.2 ⟨?_, h⟩
      intro y hy
      rcases List.mem_cons.1 hy with rfl | hy
      · exact hlt
      · exact lt_trans hlt (hx y hy)
    · split
      · next heq => subst heq; exact List.pairwise_cons.2 ⟨hx, hr⟩
      · refine List.pairwise_cons.2 ⟨?_, ih hr⟩
        intro y hy
        rcases memory_mem_write hy with rfl | hy
        · show x < a
          omega
        · exact hx y hy

/-- A write inside the address space keeps the canonical form. -/
theorem memory_write_wf {m : Memory} (h : m.wf) {a : Nat} (ha : a < Config.maxBits) (b : Bit) : (m.write a b).wf :=
  ⟨memory_write_sorted h.1 a b, fun c hc => by
    rcases memory_mem_write hc with rfl | hc
    · exact ha
    · exact h.2 c hc⟩

/-- The buffer after reset has the canonical form. -/
theorem memory_reset_wf : Memory.wf State.reset.buf := ⟨List.Pairwise.nil, by simp [State.reset]⟩

/-- Every cell that lists no address below `a` reads as nothing at `a`. -/
theorem memory_read_none_of_lt {m : Memory} {a : Nat} (h : ∀ c ∈ m, a < c.1) : m.read a = none := by
  induction m with
  | nil => rfl
  | cons d r ih =>
    obtain ⟨x, v⟩ := d
    have hx : a < x := h (x, v) List.mem_cons_self
    rw [Memory.read, if_neg (by omega)]
    exact ih fun c hc => h c (List.mem_cons_of_mem _ hc)

/-- In canonical form equal contents are equal data. -/
theorem memory_ext {m n : Memory} (hm : m.wf) (hn : n.wf) (h : ∀ a, m.read a = n.read a) : m = n := by
  induction m generalizing n with
  | nil =>
    cases n with
    | nil => rfl
    | cons d r => have := h d.1; simp [Memory.read] at this
  | cons c r ih =>
    obtain ⟨x, v⟩ := c
    obtain ⟨hx, hr⟩ := List.pairwise_cons.1 hm.1
    cases n with
    | nil => have := h x; simp [Memory.read] at this
    | cons d q =>
      obtain ⟨y, w⟩ := d
      obtain ⟨hy, hq⟩ := List.pairwise_cons.1 hn.1
      have none_r : Memory.read r x = none := memory_read_none_of_lt hx
      have none_q : Memory.read q y = none := memory_read_none_of_lt hy
      have hxy : x = y := by
        rcases lt_trichotomy x y with hlt | heq | hgt
        · have e := h x
          rw [Memory.read, if_pos rfl, memory_read_none_of_lt (m := (y, w) :: q)] at e
          · exact absurd e (by simp)
          · intro c hc
            rcases List.mem_cons.1 hc with rfl | hc
            · exact hlt
            · exact lt_trans hlt (hy c hc)
        · exact heq
        · have e := (h y).symm
          rw [Memory.read, if_pos rfl, memory_read_none_of_lt (m := (x, v) :: r)] at e
          · exact absurd e (by simp)
          · intro c hc
            rcases List.mem_cons.1 hc with rfl | hc
            · exact hgt
            · exact lt_trans hgt (hx c hc)
      subst hxy
      have hv : v = w := by have e := h x; simpa [Memory.read] using e
      subst hv
      have hrest : ∀ a, Memory.read r a = Memory.read q a := by
        intro a
        by_cases ha : a = x
        · subst ha; rw [none_r, none_q]
        · have e := h a; simpa [Memory.read, ha] using e
      rw [ih ⟨hr, fun c hc => hm.2 c (List.mem_cons_of_mem _ hc)⟩ ⟨hq, fun c hc => hn.2 c (List.mem_cons_of_mem _ hc)⟩ hrest]

/-! ### Reads of the buffer through `LEN` -/

/-- A defined cell below `LEN` reads as its content. -/
theorem bufBit_of_read {s : State} {a : Nat} {b : Bit} (ha : a < s.len.toNat) (h : s.buf.read a = some b) : bufBit s a = b := by
  simp [bufBit, ha, h]

/-- `bufBit` depends on `LEN` and on that cell alone. -/
theorem bufBit_congr {s u : State} (hl : u.len = s.len) {a : Nat} (h : a < s.len.toNat → u.buf.read a = s.buf.read a) :
    bufBit u a = bufBit s a := by
  unfold bufBit
  rw [hl]
  split
  · next ha => rw [h ha]
  · rfl

/-- `MemRead` depends on `LEN` and on the cells below it alone. -/
theorem memRead_congr {s u : State} (hl : u.len = s.len) (h : ∀ a, a < s.len.toNat → u.buf.read a = s.buf.read a) (a n : Nat) :
    memRead u a n = memRead s a n := by
  induction n generalizing a with
  | zero => rfl
  | succ n ih => rw [memRead, memRead, ih, bufBit_congr hl (h a)]

/-- `MemRead(addr, n)` is an `n`-bit number. -/
theorem memRead_lt (s : State) (a n : Nat) : memRead s a n < 2 ^ n := by
  induction n generalizing a with
  | zero => simp [memRead]
  | succ n ih =>
    have h1 : (bufBit s a).toNat ≤ 1 := by have := (bufBit s a).isLt; omega
    have h2 := ih (a + 1)
    rw [memRead, pow_succ]
    have h3 : (bufBit s a).toNat * 2 ^ n ≤ 1 * 2 ^ n := Nat.mul_le_mul_right _ h1
    omega

/-- The group register depends on `LEN` and on the cells below it alone. -/
theorem groupReg_congr {s u : State} (hl : u.len = s.len) (h : ∀ a, a < s.len.toNat → u.buf.read a = s.buf.read a)
    (k j : Nat) : groupReg u k j = groupReg s k j := by
  rw [groupReg, groupReg, memRead_congr hl h]

end Sys2Proof.Machine
end

