-- ==== Sys2Proof/Laws/Ops.lean ====
section
/-! SUPPORT. One lemma per shared operation that says once everything it can do. -/

namespace Sys2Proof.Machine

/-! ### What `STATE` does to a command -/

@[simp] theorem whenIdle_idle {s : State} (h : s.stat = .idle) (f : State → State) : whenIdle f s = f s := by
  simp [whenIdle, h]

@[simp] theorem whenIdle_of_not_idle {s : State} (h : s.stat ≠ .idle) (f : State → State) : whenIdle f s = s := by
  unfold whenIdle; split <;> simp_all

@[simp] theorem whenReady_of_not_busy {s : State} (h : s.stat ≠ .busy) (f : State → State) : whenReady f s = f s := by
  unfold whenReady; split <;> simp_all

@[simp] theorem whenReady_busy {s : State} (h : s.stat = .busy) (f : State → State) : whenReady f s = s := by
  simp [whenReady, h]

/-! ### Registry and mapper -/

/-- `k_of` answers `k` exactly for a scheme with `k` bits per symbol. -/
theorem kOf_eq_some {c : SchemeCode} {k : Nat} : kOf c = some k ↔ ∃ sc, schemeOf c = some sc ∧ sc.bits = k := by
  simp [kOf]

theorem kOf_eq_none {c : SchemeCode} : kOf c = none ↔ schemeOf c = none := by simp [kOf]

@[simp] theorem kOf_of_scheme {c : SchemeCode} {sc : Scheme} (h : schemeOf c = some sc) : kOf c = some sc.bits := by
  simp [kOf, h]

/-- A scheme has 1 to 4 bits per symbol. -/
theorem scheme_bits_bounds (sc : Scheme) : 1 ≤ sc.bits ∧ sc.bits ≤ 4 := by cases sc <;> decide

/-- The lookup finds a scheme exactly under its own code. -/
theorem schemeOf_eq_some {c : SchemeCode} {sc : Scheme} : schemeOf c = some sc ↔ c = sc.code := by
  cases sc <;> revert c <;> decide

@[simp] theorem cplxOf_code {c : SchemeCode} {sc : Scheme} (h : schemeOf c = some sc) : cplxOf c = cplxOf sc.code := by
  rw [schemeOf_eq_some.1 h]

/-- The length tag of a scheme's `k` is read back as `k`. -/
@[simp] theorem lengthTag_bits (sc : Scheme) : (lengthTag sc.bits).toNat = sc.bits := by cases sc <;> rfl

/-- Everything `map` can do (R120): the two checks in their order, then the scheme's table. -/
theorem mapWith_cases (l : Config.Levels) (c glen : BitVec 3) (g : BitVec 4) :
    (schemeOf c = none ∧ mapWith l c glen g = .error ⟨.unknownScheme, .noSub, zext16 c⟩) ∨
    (∃ sc, schemeOf c = some sc ∧ glen.toNat ≠ sc.bits ∧ mapWith l c glen g = .error ⟨.invalidGroupLength, .noSub, zext16 glen⟩) ∨
    (∃ sc, schemeOf c = some sc ∧ glen.toNat = sc.bits ∧ mapWith l c glen g = .ok (sc.point l g)) := by
  unfold mapWith
  cases hc : schemeOf c with
  | none => exact .inl ⟨rfl, rfl⟩
  | some sc =>
    by_cases hg : glen.toNat = sc.bits
    · exact .inr (.inr ⟨sc, rfl, hg, by simp [hg]⟩)
    · exact .inr (.inl ⟨sc, rfl, hg, by simp [hg]⟩)

/-- The mapper under the grouper's own length tag never raises (R106, R135, R224). -/
theorem mapSymbol_tag {c : SchemeCode} {sc : Scheme} (h : schemeOf c = some sc) (g : BitVec 4) :
    mapSymbol c (lengthTag sc.bits) g = .ok (sc.point Config.levels g) := by
  simp [mapSymbol, mapWith, h]

theorem mapGroup_ok {s : State} {sc : Scheme} (h : schemeOf s.sch = some sc) (j : Nat) :
    mapGroup s sc.bits j = .ok (sc.point Config.levels (groupReg s sc.bits j)) := mapSymbol_tag h _

/-! ### Length validation -/

/-- Everything `check_len` can do (R104). -/
theorem checkLen_cases (len k : Nat) :
    (len = 0 ∧ checkLen len k = .error ⟨.invalidInput, .empty, 0⟩) ∨
    (len ≠ 0 ∧ len % k ≠ 0 ∧ checkLen len k = .error ⟨.invalidInput, .notMult, BitVec.ofNat 16 (len % k)⟩) ∨
    (len ≠ 0 ∧ len % k = 0 ∧ checkLen len k = .ok (len / k)) := by
  unfold checkLen
  by_cases h0 : len = 0
  · simp [h0]
  · by_cases h1 : len % k = 0 <;> simp [h0, h1]

/-! ### RUN -/

theorem validateGroups_ok {s : State} {sc : Scheme} (h : schemeOf s.sch = some sc) (js : List Nat) :
    validateGroups s sc.bits js = .ok () := by
  induction js with
  | nil => rfl
  | cons j js ih => simp [validateGroups, mapGroup_ok h, ih]

/-- The datapath registers loaded for symbol `j` of scheme `sc` (R35 to R38). -/
def withSymbol (sc : Scheme) (j : Nat) (s : State) : State :=
  { s with
    grp := groupReg s sc.bits j
    glen := lengthTag sc.bits
    symI := (sc.point Config.levels (groupReg s sc.bits j)).i
    symQ := (sc.point Config.levels (groupReg s sc.bits j)).q }

theorem loadSymbol_ok {s : State} {sc : Scheme} (h : schemeOf s.sch = some sc) (j : Nat) :
    loadSymbol sc.bits j s = .ok (withSymbol sc j s) := by
  simp [loadSymbol, mapGroup_ok h, withSymbol]

/-- The state in which a transmission of `N` symbols begins (R151 step 4). -/
def started (sc : Scheme) (N : Nat) (s : State) : State :=
  { withSymbol sc 0 s with nsym := BitVec.ofNat 9 N, si := 0, ri := 0, t := 0, done := false, stat := .busy }

/-- Everything `RUN` can do in `IDLE` (R151): the three reachable errors in their order, or the transmission starts. -/
theorem runChecked_cases (s : State) :
    (schemeOf s.sch = none ∧ runChecked s = .error ⟨.unknownScheme, .noSub, zext16 s.sch⟩) ∨
    (∃ sc, schemeOf s.sch = some sc ∧ s.len.toNat = 0 ∧ runChecked s = .error ⟨.invalidInput, .empty, 0⟩) ∨
    (∃ sc, schemeOf s.sch = some sc ∧ s.len.toNat ≠ 0 ∧ s.len.toNat % sc.bits ≠ 0 ∧
      runChecked s = .error ⟨.invalidInput, .notMult, BitVec.ofNat 16 (s.len.toNat % sc.bits)⟩) ∨
    (∃ sc, RunValid s sc ∧ runChecked s = .ok (started sc (s.len.toNat / sc.bits) s)) := by
  cases hc : schemeOf s.sch with
  | none => exact .inl ⟨rfl, by simp [runChecked, kOf_eq_none.2 hc]⟩
  | some sc =>
    have hk := kOf_of_scheme hc
    rcases checkLen_cases s.len.toNat sc.bits with ⟨h0, h⟩ | ⟨h0, h1, h⟩ | ⟨h0, h1, h⟩
    · exact .inr (.inl ⟨sc, rfl, h0, by simp [runChecked, hk, h]⟩)
    · exact .inr (.inr (.inl ⟨sc, rfl, h0, h1, by simp [runChecked, hk, h]⟩))
    · refine .inr (.inr (.inr ⟨sc, ⟨hc, by omega, h1⟩, ?_⟩))
      simp [runChecked, hk, h, startTransmission, validateGroups_ok hc, loadSymbol_ok hc, started]

/-- `RUN` in `IDLE` starts the transmission when its two checks pass. -/
theorem runIdle_valid {s : State} {sc : Scheme} (h : RunValid s sc) :
    runIdle s = started sc (s.len.toNat / sc.bits) s := by
  obtain ⟨hc, hpos, hmod⟩ := h
  rcases runChecked_cases s with ⟨h, -⟩ | ⟨sc', -, h0, -⟩ | ⟨sc', h, -, h1, -⟩ | ⟨sc', ⟨h, -, -⟩, h1⟩
  · simp [hc] at h
  · omega
  · obtain rfl : sc' = sc := by simpa [hc] using h.symm
    exact absurd hmod h1
  · obtain rfl : sc' = sc := by simpa [hc] using h.symm
    simp [runIdle, h1]

/-! ### PUSH -/

/-- Everything `PUSH` can do in `IDLE` (R101): bad character, full buffer, or the bit is appended, in this order. -/
theorem pushIdle_cases (c : CharCode) (s : State) :
    (digit c = none ∧ pushIdle c s = trap ⟨.invalidInput, .badChar, zext16 c⟩ s) ∨
    (∃ d, digit c = some d ∧ Config.maxBits ≤ s.len.toNat ∧ pushIdle c s = trap ⟨.overflow, .noSub, zext16 c⟩ s) ∨
    (∃ d, digit c = some d ∧ s.len.toNat < Config.maxBits ∧ pushIdle c s = appendBit d s) := by
  unfold pushIdle
  cases hd : digit c with
  | none => exact .inl ⟨rfl, rfl⟩
  | some d =>
    by_cases hl : Config.maxBits ≤ s.len.toNat
    · exact .inr (.inl ⟨d, rfl, hl, by simp [hl]⟩)
    · exact .inr (.inr ⟨d, rfl, by omega, by simp [hl]⟩)

/-- A digit is one of the two character codes (R102). -/
theorem digit_eq_some {c : CharCode} {d : Bit} (h : digit c = some d) : c = Config.ch0 ∨ c = Config.ch1 := by
  unfold digit at h
  split at h
  · next e => exact .inl e
  · split at h
    · next e => exact .inr e
    · cases h

/-! ### The emit step -/

@[simp] theorem groupReg_dropEdge (s : State) (k j : Nat) : groupReg (dropEdge s) k j = groupReg s k j :=
  groupReg_congr (s := s) (u := dropEdge s) rfl (fun _ _ => rfl) k j

@[simp] theorem groupReg_issued (s : State) (ws : List Word) (k j : Nat) : groupReg (issued s ws) k j = groupReg s k j :=
  groupReg_congr (s := s) (u := issued s ws) rfl (fun _ _ => rfl) k j

@[simp] theorem groupReg_acceptBeat (s : State) (k j : Nat) : groupReg (acceptBeat s) k j = groupReg s k j :=
  groupReg_congr (s := s) (u := acceptBeat s) rfl (fun _ _ => rfl) k j

/-- What the first branch of the emit step leaves (R152). -/
def nextSample (s : State) : State := { s with out := s.out ++ [currentBeat s], t := s.t + 1, ri := s.ri + 1 }

/-- What the second branch of the emit step leaves (R152): symbol `SI + 1` loaded. -/
def enteredSymbol (sc : Scheme) (s : State) : State :=
  { s with
    out := s.out ++ [currentBeat s]
    t := s.t + 1
    ri := 0
    si := s.si + 1
    grp := groupReg s sc.bits (s.si.toNat + 1)
    glen := lengthTag sc.bits
    symI := (sc.point Config.levels (groupReg s sc.bits (s.si.toNat + 1))).i
    symQ := (sc.point Config.levels (groupReg s sc.bits (s.si.toNat + 1))).q }

/-- Everything the emit step can do (R152), the fault of log entry 4 among it. -/
theorem emitStep_cases (s : State) :
    (moreSamples s ∧ emitStep s = .next (nextSample s)) ∨
    (¬ moreSamples s ∧ moreSymbols s ∧ schemeOf s.sch = none ∧ emitStep s = .fault .emitMapRaised) ∨
    (¬ moreSamples s ∧ moreSymbols s ∧ ∃ sc, schemeOf s.sch = some sc ∧ emitStep s = .next (enteredSymbol sc s)) ∨
    (¬ moreSamples s ∧ ¬ moreSymbols s ∧ emitStep s = .next (finishTransmission s)) := by
  unfold emitStep
  by_cases h1 : moreSamples s
  · exact .inl ⟨h1, by rw [if_pos h1]; rfl⟩
  · by_cases h2 : moreSymbols s
    · cases hc : schemeOf s.sch with
      | none => exact .inr (.inl ⟨h1, h2, rfl, by rw [if_neg h1, if_pos h2]; simp [nextSymbol, kOf_eq_none.2 hc]⟩)
      | some sc =>
        refine .inr (.inr (.inl ⟨h1, h2, sc, rfl, ?_⟩))
        have ha : schemeOf (acceptBeat s).sch = some sc := hc
        rw [if_neg h1, if_pos h2]
        simp [nextSymbol, kOf_of_scheme hc, loadSymbol_ok ha, withSymbol, groupReg_acceptBeat, enteredSymbol]
    · exact .inr (.inr (.inr ⟨h1, h2, by rw [if_neg h1, if_neg h2]⟩))

end Sys2Proof.Machine
end

