-- ==== Sys2Proof/Laws/PerInstr.lean ====
section
/-! SUPPORT. What every command's encoding has in common, proved once for each constructor of `Instr`: the field layout of
30_encoding.md R81 and R82. -/

namespace Sys2Proof

/-- One bit of a word put together from its fields. -/
theorem formatC_getLsbD (op : BitVec 4) (imm : BitVec 8) (j : Nat) :
    (formatC op imm).getLsbD j = (op ++ (0#4 ++ imm) : BitVec (4 + (4 + 8))).getLsbD j := rfl

@[simp] theorem opField_formatC (op : BitVec 4) (imm : BitVec 8) : opField (formatC op imm) = op := by
  apply BitVec.eq_of_getLsbD_eq
  intro j hj
  rw [opField, BitVec.getLsbD_extractLsb', formatC_getLsbD, BitVec.getLsbD_append]
  simp [hj, show ¬ 12 + j < 4 + 8 by omega, show 12 + j - (4 + 8) = j by omega]

@[simp] theorem rzField_formatC (op : BitVec 4) (imm : BitVec 8) : rzField (formatC op imm) = 0 := by
  apply BitVec.eq_of_getLsbD_eq
  intro j hj
  rw [rzField, BitVec.getLsbD_extractLsb', formatC_getLsbD, BitVec.getLsbD_append, BitVec.getLsbD_append]
  simp [hj, show 8 + j < 4 + 8 by omega]

@[simp] theorem immField_formatC (op : BitVec 4) (imm : BitVec 8) : immField (formatC op imm) = imm := by
  apply BitVec.eq_of_getLsbD_eq
  intro j hj
  rw [immField, BitVec.getLsbD_extractLsb', formatC_getLsbD, BitVec.getLsbD_append, BitVec.getLsbD_append]
  simp [hj, show j < 4 + 8 by omega]

/-- The value of `op` that R82 gives each command. -/
def opcodeOf : Instr → BitVec 4
  | .nop => 0
  | .clr => 1
  | .setsch _ => 2
  | .setn _ => 3
  | .push _ => 4
  | .run => 5

namespace Laws

/-- Opcode in the top four bits, the reserved field zero, and no operand bits for the three commands without one (R81 to R86). -/
def EncodingFields.Statement (i : Instr) : Prop :=
  opField (encode i) = opcodeOf i ∧ rzField (encode i) = 0 ∧
    ((i = .nop ∨ i = .clr ∨ i = .run) → immField (encode i) = 0)

theorem EncodingFields.nop : EncodingFields.Statement .nop := by simp [EncodingFields.Statement, encode, opcodeOf]

theorem EncodingFields.clr : EncodingFields.Statement .clr := by simp [EncodingFields.Statement, encode, opcodeOf]

theorem EncodingFields.setsch (s : SchemeCode) : EncodingFields.Statement (.setsch s) := by
  simp [EncodingFields.Statement, encode, opcodeOf]

theorem EncodingFields.setn (n : BitVec 8) : EncodingFields.Statement (.setn n) := by
  simp [EncodingFields.Statement, encode, opcodeOf]

theorem EncodingFields.push (c : CharCode) : EncodingFields.Statement (.push c) := by
  simp [EncodingFields.Statement, encode, opcodeOf]

theorem EncodingFields.run : EncodingFields.Statement .run := by simp [EncodingFields.Statement, encode, opcodeOf]

end Laws
end Sys2Proof
end

