-- ==== Sys2Proof/Laws/Step.lean ====
section
/-! SUPPORT. The inversion of one step: what a clock edge can do, and what an issued command can do. -/

namespace Sys2Proof.Machine

/-- A command that executes answers a next state; nothing an instruction does stops the machine. -/
theorem exec_next (i : Instr) (s : State) : ∃ t, exec i s = .next t := by
  cases i <;> exact ⟨_, rfl⟩

theorem issueWord_next (w : Word) (s : State) : ∃ t, issueWord w s = .next t := by
  unfold issueWord
  split
  · exact exec_next _ _
  · exact ⟨_, rfl⟩

/-- A word that decodes to a command is executed as it. -/
theorem issueWord_command {w : Word} {i : Instr} (h : decode w = .command i) (s : State) : issueWord w s = exec i s := by
  simp [issueWord, h]

/-- A word that is no command raises or is discarded. -/
theorem issueWord_illegal {w : Word} (h : (decode w).instr? = none) (s : State) :
    issueWord w s = .next (illegalWord w s) := by
  unfold issueWord
  cases hd : decode w with
  | command i => simp [hd, Decoded.instr?] at h
  | illegal w' r => rfl

/-- A word offered outside `BUSY` is issued. -/
theorem step_of_offers {s : State} {w : Word} {ws : List Word} (h : Offers s w ws) (hb : s.stat ≠ .busy) :
    step s = issueWord w (issued s ws) := by
  obtain ⟨h1, h2, h3⟩ := h
  have hready : cmdReady (dropEdge s) = true := by simp [cmdReady, hb]
  unfold step clockEdge
  rw [if_neg (by simp [h1]), if_pos hready, if_pos h2]
  simp [issueNext, h3, issued, dropEdge]

/-- A beat accepted by the sink is the emit step. -/
theorem step_of_beatAccepted {s : State} (h : BeatAccepted s) : step s = emitStep (dropEdge s) := by
  obtain ⟨h1, h2, h3⟩ := h
  simp [step, clockEdge, h2, h3, cmdReady, h1]

/-- A beat that the sink does not accept stays offered. -/
theorem step_of_stall {s : State} (hb : s.stat = .busy) (hr : (edgeNow s).rst = false) (ho : (edgeNow s).outReady = false) :
    step s = .next (dropEdge s) := by
  simp [step, clockEdge, hr, ho, cmdReady, hb]

/-- Everything a step can do. -/
theorem step_cases (s : State) :
    ((edgeNow s).rst = true ∧ step s = .next (resetBlock (dropEdge s))) ∨
    ((edgeNow s).rst = false ∧ s.stat ≠ .busy ∧ (∃ w ws, Offers s w ws ∧ step s = issueWord w (issued s ws))) ∨
    ((edgeNow s).rst = false ∧ s.stat ≠ .busy ∧ ((edgeNow s).cmdValid = false ∨ s.cmds = []) ∧ step s = .next (dropEdge s)) ∨
    (BeatAccepted s ∧ step s = emitStep (dropEdge s)) ∨
    ((edgeNow s).rst = false ∧ s.stat = .busy ∧ (edgeNow s).outReady = false ∧ step s = .next (dropEdge s)) := by
  unfold step clockEdge
  cases hr : (edgeNow s).rst with
  | true => simp
  | false =>
    by_cases hb : s.stat = .busy
    · cases ho : (edgeNow s).outReady <;> simp [cmdReady, hb, ho, BeatAccepted, hr]
    · have hready : cmdReady (dropEdge s) = true := by simp [cmdReady, hb]
      cases hv : (edgeNow s).cmdValid with
      | false => simp [hready, hb]
      | true =>
        cases hcm : s.cmds with
        | nil => simp [hready, hb, issueNext, hcm]
        | cons w ws =>
          refine .inr (.inl ⟨rfl, hb, w, ws, ⟨hr, hv, hcm⟩, ?_⟩)
          rw [if_neg (by simp), if_pos hready, if_pos rfl]
          simp [issueNext, hcm, issued, dropEdge]

/-! ### Runs -/

theorem run_zero (s : State) : Sys2Proof.core.run 0 s = .next s := rfl

/-- A run of one more step, when the first step goes on. -/
theorem run_succ_next {s t : State} (h : step s = .next t) (n : Nat) :
    Sys2Proof.core.run (n + 1) s = Sys2Proof.core.run n t := by
  have hs : Sys2Proof.core.step s = .next t := h
  simp only [Host.Core.run, hs]

/-- The first step of a run that goes on. -/
theorem run_succ_inv {s t : State} {n : Nat} (h : Sys2Proof.core.run (n + 1) s = .next t) :
    ∃ u, step s = .next u ∧ Sys2Proof.core.run n u = .next t := by
  cases hs : step s with
  | next u => exact ⟨u, rfl, by rw [← run_succ_next hs]; exact h⟩
  | fault r =>
    have hs' : Sys2Proof.core.step s = .fault r := hs
    simp only [Host.Core.run, hs'] at h
    cases h
  | refused r =>
    have hs' : Sys2Proof.core.step s = .refused r := hs
    simp only [Host.Core.run, hs'] at h
    cases h

/-- Two runs in a row. -/
theorem run_add {s t : State} {m : Nat} (h : Sys2Proof.core.run m s = .next t) (n : Nat) :
    Sys2Proof.core.run (m + n) s = Sys2Proof.core.run n t := by
  induction m generalizing s with
  | zero =>
    obtain rfl : s = t := by rw [run_zero] at h; exact Host.Outcome.next.inj h
    simp
  | succ m ih =>
    obtain ⟨u, hu, hr⟩ := run_succ_inv h
    rw [Nat.succ_add, run_succ_next hu]
    exact ih hr

end Sys2Proof.Machine
end

