-- ==== Sys2Proof/Tests/Slice0.lean ====
section
/-! SUPPORT. Tests on fixed values, each expected result from spec/ (the rule is named), and for every statement with hypotheses a
named witness that meets them. -/

namespace Sys2Proof.Tests

open Sys2Proof Sys2Proof.Machine

/-! ### Helpers -/

/-- A buffer that holds a bit string from address 0. -/
def bufOf (l : List Bit) : Memory := (List.range l.length).zip l

/-- `IDLE` with a scheme, a count and a bit string; the environment of reset. -/
def idleWith (c : SchemeCode) (n : BitVec 8) (l : List Bit) : State :=
  { State.reset with sch := c, nsps := n, len := BitVec.ofNat 9 l.length, buf := bufOf l }

/-- The state of the example of R151: 4-PSK, two samples per symbol, bits 1010. -/
def ready : State := idleWith 2 2 [1, 0, 1, 0]

/-- `ready` after its `RUN`: symbol 0, offset 0 (R151, example). -/
def busy : State :=
  { ready with
    stat := .busy, nsym := 2, grp := 0b0010, glen := 2, symI := 0xD2BF, symQ := 0x2D41 }

/-- The last sample of symbol 0 of `busy` on offer. -/
def busyHold : State :=
  { busy with ri := 1, t := 1, out := [⟨0, 0xD2BF, 0x2D41, true, false, true⟩] }

/-- The last beat of `busy` on offer. -/
def busyLast : State :=
  { busy with
    si := 1, ri := 1, t := 3
    out := [⟨0, 0xD2BF, 0x2D41, true, false, true⟩, ⟨1, 0xD2BF, 0x2D41, false, false, true⟩,
      ⟨2, 0xD2BF, 0x2D41, true, false, true⟩] }

/-- The error state of the example of R176, after a `NOTMULT`. -/
def failed : State :=
  { idleWith 2 1 [1, 0, 1] with stat := .error, cause := .invalidInput, sub := .notMult, einfo := 1 }

/-- A state with one word offered. -/
def offering (w : Word) (s : State) : State := { s with cmds := [w] }

/-! ### WellFormed: each check refuses an ill-formed term -/

theorem test_setn_zero_is_ill_formed : (Instr.setn 0).wellFormed = false := rfl

theorem test_setn_one_is_well_formed : (Instr.setn 1).wellFormed = true := rfl

/-! ### Decode: words written bit by bit from R82, and the edges of each range (R83 to R89) -/

theorem test_decode_nop : decode 0b0000_0000_0000_0000 = .command .nop := by decide
theorem test_decode_clr : decode 0b0001_0000_0000_0000 = .command .clr := by decide
theorem test_decode_setsch_lowest : decode 0b0010_0000_0000_0000 = .command (.setsch 0) := by decide
theorem test_decode_setsch_highest : decode 0b0010_0000_0000_0111 = .command (.setsch 7) := by decide
theorem test_decode_setn_lowest : decode 0b0011_0000_0000_0001 = .command (.setn 1) := by decide
theorem test_decode_setn_highest : decode 0b0011_0000_1111_1111 = .command (.setn 255) := by decide
theorem test_decode_push_lowest : decode 0b0100_0000_0000_0000 = .command (.push 0) := by decide
theorem test_decode_push_digit : decode 0b0100_0000_0011_0001 = .command (.push 0x31) := by decide
theorem test_decode_push_highest : decode 0b0100_0000_1111_1111 = .command (.push 0xFF) := by decide
theorem test_decode_run : decode 0b0101_0000_0000_0000 = .command .run := by decide

/-- The words just outside each legal range (R87 to R89). -/
theorem test_decode_rejects :
    ([0x0001, 0x00FF, 0x0100, 0x0FFF, 0x1001, 0x1100, 0x2008, 0x20FF, 0x2100, 0x3000, 0x3100, 0x4100, 0x4131, 0x5001, 0x5100,
      0x6000, 0xFFFF].all fun w => (decode w).instr?.isNone) = true := by decide +kernel

theorem test_table_word_push : decodeTableWord 16 0x4031 = some (.push 0x31) := by decide
theorem test_table_word_illegal : decodeTableWord 16 0x3000 = none := by decide
theorem test_encode_setsch : encode (.setsch 4) = 0x2004 := by decide

/-! ### Parameters (R8) -/

theorem test_parameter_constraints :
    Config.ch0 ≠ Config.ch1 ∧ 4 ≤ Config.maxBits ∧ Config.maxBits * Config.nMax < 2 ^ Config.tw ∧
      Config.maxBits < 2 ^ Config.lw ∧ Config.nMax = 2 ^ Config.nw - 1 ∧ Config.frac ≤ Config.w - 2 ∧
      1 ≤ Config.nReset.toNat ∧ Config.levels.valid := by decide

/-- R8: `ONE` is 16384, the default of `A_OOK` and `PSK_R`. -/
theorem test_one : Config.one = 0x4000 ∧ Config.levels = ⟨16384, 16384, 11585, 4096⟩ := by decide

/-! ### One step of each command -/

/-- A word offered to the machine right after reset is the step's command. -/
theorem test_step_runs_the_offered_word :
    step (State.reset.withFetchWord 16 0x2004) = .next { State.reset with sch := 4 } := rfl

/-- R175. -/
theorem test_nop : exec .nop failed = .next failed := rfl

/-- R176, example: `SCH` stays 2. -/
theorem test_clr : exec .clr failed = .next { idleWith 2 1 [1, 0, 1] with len := 0 } := rfl

/-- R173: any code is stored, and discarded in `ERROR`. -/
theorem test_setsch : exec (.setsch 5) ready = .next { ready with sch := 5 } := rfl
theorem test_setsch_in_error : exec (.setsch 5) failed = .next failed := rfl

/-- R174, example. -/
theorem test_setn : exec (.setn 4) ready = .next { ready with nsps := 4 } := rfl

/-- R101, example: the second `PUSH`, and the character `'2'`. -/
theorem test_push_digit : exec (.push 0x30) (idleWith 7 1 [1]) = .next (idleWith 7 1 [1, 0]) := rfl
theorem test_push_bad_character : exec (.push 0x32) (idleWith 7 1 [1, 0]) =
    .next { idleWith 7 1 [1, 0] with stat := .error, cause := .invalidInput, sub := .badChar, einfo := 0x0032 } := rfl

/-- R151, example. -/
theorem test_run : exec .run ready = .next busy := rfl

/-- R151, corner case: right after reset the Registry lookup fails first. -/
theorem test_run_after_reset : exec .run State.reset =
    .next { State.reset with stat := .error, cause := .unknownScheme, einfo := 7 } := rfl

/-- R205: the word is recorded. -/
theorem test_illegal_word : issueWord 0x6000 State.reset =
    .next { State.reset with stat := .error, cause := .illegalCommand, einfo := 0x6000 } := rfl

/-- R152: the last beat. -/
theorem test_last_beat : step busyLast = .next { busyLast with
    out := busyLast.out ++ [⟨3, 0xD2BF, 0x2D41, false, true, true⟩], ri := 0, t := 4, si := 2, done := true, stat := .idle } := rfl

/-- 95_test_vectors.md, program 4: the `STATUS` word after `RUN` from reset. -/
theorem test_status_word : statusWord { State.reset with stat := .error, cause := .unknownScheme, einfo := 7 } = 0x0022 := by
  decide

/-- The buffer of a helper state has the canonical form, a write out of order keeps it. -/
theorem test_memory_wf : ((bufOf [1, 0, 1]).write 1 1).wf ∧ (Memory.write [(3, 1)] 1 0).wf := by decide

/-- 30_encoding.md R93: `BITS "10"`. -/
theorem test_assemble_bits : assemble (.bits ['1', '0']) = some [0x4031, 0x4030] := by decide

/-- 42_waveform_synth.md R165, R166: the end of a successful and of a failed invocation. -/
theorem test_end_of_run : RanToEnd failed ∧ Failed failed ∧ ¬ Succeeded failed ∧ ¬ RanToEnd busy := by decide

/-! ### The invariants hold of the helper states -/

theorem inv_ready : Inv ready where
  memory := by decide
  written := by decide
  lenLe := by decide
  nspsPos := by decide
  errorIff := by decide
  record := ⟨rfl, rfl⟩
  nsymLe := by decide
  siLe := by decide
  glenLe := by decide
  riLt := by decide
  riIdle := by decide
  busy := by intro h; exact absurd h (by decide)
  done := by intro h; exact absurd h (by decide)
  history := by decide

theorem inv_busy : Inv busy where
  memory := by decide
  written := by decide
  lenLe := by decide
  nspsPos := by decide
  errorIff := by decide
  record := ⟨rfl, rfl⟩
  nsymLe := by decide
  siLe := by decide
  glenLe := by decide
  riLt := by decide
  riIdle := by decide
  busy := fun _ => ⟨.psk4, by constructor <;> decide⟩
  done := by intro h; exact absurd h (by decide)
  history := by decide

theorem inv_busyLast : Inv busyLast where
  memory := by decide
  written := by decide
  lenLe := by decide
  nspsPos := by decide
  errorIff := by decide
  record := ⟨rfl, rfl⟩
  nsymLe := by decide
  siLe := by decide
  glenLe := by decide
  riLt := by decide
  riIdle := by decide
  busy := fun _ => ⟨.psk4, by constructor <;> decide⟩
  done := by intro h; exact absurd h (by decide)
  history := by decide

theorem inv_failed : Inv failed where
  memory := by decide
  written := by decide
  lenLe := by decide
  nspsPos := by decide
  errorIff := by decide
  record := .inr (.inr ⟨rfl, 2, by decide⟩)
  nsymLe := by decide
  siLe := by decide
  glenLe := by decide
  riLt := by decide
  riIdle := by decide
  busy := by intro h; exact absurd h (by decide)
  done := by intro h; exact absurd h (by decide)
  history := by decide

/-! ### Witnesses: concrete states and operands that meet the hypotheses of each statement, clause by clause -/

theorem witness_ResetEdgeOverridesEverything : (edgeNow { busy with edges := [⟨true, true, true⟩] }).rst = true := rfl

theorem witness_DecodeFollowsWordRanges :
    (decode 0x2007 = .command (.setsch 7) ∧ decode 0x30FF = .command (.setn 255) ∧ decode 0x4000 = .command (.push 0)) ∧
    ((decode 0x0001).instr? = none ∧ (decode 0x1001).instr? = none ∧ (decode 0x2008).instr? = none ∧
      (decode 0x3000).instr? = none ∧ (decode 0x4100).instr? = none ∧ (decode 0x5001).instr? = none) := by decide

theorem witness_DecodeOfEncodeIsTheCommand : (Instr.setn 1).wellFormed = true ∧ (Instr.setn 255).wellFormed = true := by decide

theorem witness_EncodeOfDecodedIsTheWord : decode 0x40FF = .command (.push 0xFF) := by decide

theorem witness_StepExecutesTheIssuedCommand :
    (Offers (offering 0x5000 ready) 0x5000 [] ∧ ready.stat ≠ .busy ∧ decode 0x5000 = .command .run) ∧
    (Offers (offering 0x1000 failed) 0x1000 [] ∧ failed.stat ≠ .busy ∧ decode 0x1000 = .command .clr) := by decide

theorem witness_IllegalWordRaisesOrIsDiscarded :
    (Offers (offering 0x3000 ready) 0x3000 [] ∧ (decode 0x3000).instr? = none ∧ (offering 0x3000 ready).stat = .idle) ∧
    (Offers (offering 0x6000 failed) 0x6000 [] ∧ (decode 0x6000).instr? = none ∧ (offering 0x6000 failed).stat = .error) := by
  decide

theorem witness_ErrorStateDiscardsAllButClr :
    failed.stat = .error ∧
    (Offers (offering 0x1000 failed) 0x1000 [] ∧ decode 0x1000 = .command .clr) ∧
    (Offers (offering 0x0000 failed) 0x0000 [] ∧ decode 0x0000 ≠ .command .clr) ∧
    (Offers (offering 0xFFFF failed) 0xFFFF [] ∧ decode 0xFFFF ≠ .command .clr) := by decide

theorem witness_OfferedWordsWaitWhileBusy :
    (offering 0x4031 busy).stat = .busy ∧
      step (offering 0x4031 busy) = .next { offering 0x4031 busyHold with out := [⟨0, 0xD2BF, 0x2D41, true, false, true⟩] } :=
  ⟨rfl, rfl⟩

theorem witness_CommandsWaitInBusy : busy.stat = .busy := rfl

theorem witness_BlockWaitsWithoutACommand :
    (ready.stat ≠ .busy ∧ (edgeNow ready).rst = false ∧ ready.cmds = []) ∧
    (failed.stat ≠ .busy ∧ (edgeNow { offering 0x1000 failed with edges := [⟨false, false, true⟩] }).rst = false ∧
      (edgeNow { offering 0x1000 failed with edges := [⟨false, false, true⟩] }).cmdValid = false) := by decide

theorem witness_NopChangesNothing : ready.stat ≠ .busy ∧ failed.stat ≠ .busy := by decide

theorem witness_ClrEmptiesBufferAndLeavesError :
    (ready.stat ≠ .busy ∧ failed.stat ≠ .busy ∧ busy.stat = .busy) ∧
    ∃ t, failed.stat = .error ∧ exec .clr failed = .next t ∧ t.stat ≠ .error := ⟨by decide, _, rfl, rfl, by decide⟩

theorem witness_SetschSelectsTheScheme :
    (ready.stat = .idle ∧ failed.stat = .error) ∧
    (0x2008 ≤ (0x2008#16).toNat ∧ (0x2008#16).toNat ≤ 0x20FF) ∧ (0x2008 ≤ (0x20FF#16).toNat ∧ (0x20FF#16).toNat ≤ 0x20FF) := by
  decide

theorem witness_SetnSetsSamplesPerSymbol :
    ((1 : BitVec 8) ≠ 0 ∧ (255 : BitVec 8) ≠ 0) ∧ ready.stat = .idle ∧ failed.stat = .error := by decide

/-- `LEN` at 0, at `MAXBITS − 1` and at `MAXBITS`; the codes next to the two digits. -/
theorem witness_PushAppendsDigitOrRaises :
    (State.reset.len.toNat ≤ Config.maxBits ∧ State.reset.stat = .idle ∧ digit 0x30 = some 0 ∧
      State.reset.len.toNat < Config.maxBits) ∧
    ({ ready with len := 255 }.len.toNat ≤ Config.maxBits ∧ digit 0x31 = some 1 ∧
      { ready with len := 255 }.len.toNat < Config.maxBits) ∧
    (digit 0x2F = none ∧ digit 0x32 = none) ∧
    ({ ready with len := 256 }.len.toNat ≤ Config.maxBits ∧ { ready with len := 256 }.stat = .idle ∧
      (digit 0x31).isSome = true ∧ { ready with len := 256 }.len.toNat = Config.maxBits) ∧
    (failed.len.toNat ≤ Config.maxBits ∧ failed.stat = .error) ∧ (busy.len.toNat ≤ Config.maxBits ∧ busy.stat = .busy) := by
  decide

theorem witness_RunStartsTheTransmissionOrRaises :
    (ready.stat = .idle ∧ RunValid ready .psk4) ∧
    ({ ready with len := 256, sch := 1 }.stat = .idle ∧ RunValid { ready with len := 256, sch := 1 } .psk2) ∧
    (State.reset.stat = .idle ∧ kOf State.reset.sch = none ∧ kOf { ready with sch := 5 }.sch = none) ∧
    ((kOf { State.reset with sch := 4 }.sch).isSome = true ∧ { State.reset with sch := 4 }.len = 0) ∧
    (kOf { ready with sch := 3, len := 256 }.sch = some 3 ∧ { ready with sch := 3, len := 256 }.len ≠ 0 ∧
      { ready with sch := 3, len := 256 }.len.toNat % 3 ≠ 0) ∧
    failed.stat = .error ∧ busy.stat = .busy := by decide

theorem witness_RunNeverRaisesGroupLength :
    runChecked State.reset = .error { cause := .unknownScheme, sub := .noSub, info := 7 } := rfl

theorem witness_EmitStepAdvancesTheTransmission :
    (BeatAccepted busy ∧ schemeOf busy.sch = some .psk4 ∧ busy.ri.toNat + 1 < busy.nsps.toNat) ∧
    (BeatAccepted busyHold ∧ schemeOf busyHold.sch = some .psk4 ∧ ¬ busyHold.ri.toNat + 1 < busyHold.nsps.toNat ∧
      busyHold.si.toNat + 1 < busyHold.nsym.toNat) ∧
    (BeatAccepted busyLast ∧ schemeOf busyLast.sch = some .psk4 ∧ ¬ busyLast.ri.toNat + 1 < busyLast.nsps.toNat ∧
      ¬ busyLast.si.toNat + 1 < busyLast.nsym.toNat) := by decide

theorem witness_OutputPortCarriesTheBeat : busy.stat = .busy ∧ busyLast.stat = .busy := by decide

theorem witness_HandshakePinsFollowState : outValid ready = false ∧ outValid failed = false := by decide

theorem witness_StalledSinkHoldsTheBeat :
    busyLast.stat = .busy ∧ (edgeNow { busyLast with edges := [⟨false, true, false⟩] }).rst = false ∧
      (edgeNow { busyLast with edges := [⟨false, true, false⟩] }).outReady = false := by decide

/-- A sink that never accepts, with a host that goes on offering. -/
def deaf : State := { busy with after := ⟨false, true, false⟩ }

theorem witness_SinkThatNeverAcceptsHoldsTheBlock :
    deaf.stat = .busy ∧ deaf.edges = [] ∧ deaf.after.rst = false ∧ deaf.after.outReady = false := by decide

theorem witness_StatusPortReadsTheRegisters : 12 ≤ (12 : BitVec 4).toNat ∧ 12 ≤ (15 : BitVec 4).toNat := by decide

/-- The first and the last stored cell of `ready`, in the first and the last bit of a group. -/
theorem witness_GroupBitsAreBufferCellsInOrder :
    (0 < Scheme.bits .ook ∧ 3 < Scheme.bits .qam16 ∧ Scheme.bits .ook ≤ 1) ∧
    (0 < Scheme.bits .psk4 ∧ 0 * Scheme.bits .psk4 + 0 < ready.len.toNat ∧
      ready.buf.read (0 * Scheme.bits .psk4 + 0) = some 1) ∧
    (1 < Scheme.bits .psk4 ∧ 1 * Scheme.bits .psk4 + 1 < ready.len.toNat ∧
      ready.buf.read (1 * Scheme.bits .psk4 + 1) = some 0) := by decide

theorem witness_MapChecksSchemeThenLength :
    (kOf 5 = none ∧ kOf 7 = none) ∧ (kOf 0 = some 1 ∧ (0 : BitVec 3).toNat ≠ 1) ∧ (kOf 4 = some 4 ∧ (5 : BitVec 3).toNat ≠ 4) := by
  decide

/-- The largest `QAM_U` that R8 admits with the largest other constants, the smallest of each, the most negative. -/
theorem witness_EveryTableIsABijection :
    (Config.Levels.fits ⟨32767, 32767, 32767, 10922⟩ ∧ Config.Levels.fits ⟨1, 1, 1, 1⟩ ∧
      Config.Levels.fits ⟨-32768, -32767, -32767, -10922⟩) ∧
    ((1 : Sample) ≠ 0 ∧ (32767 : Sample) ≠ 0 ∧ (-32768 : Sample) ≠ 0 ∧ (-10922 : Sample) ≠ 0) ∧
    ((15 : BitVec 4).toNat < 2 ^ Scheme.bits .qam16 ∧
      Scheme.point Config.levels .qam16 15 = Scheme.point Config.levels .qam16 15) := by decide

theorem witness_NearestNeighboursDifferInOneBit :
    nearest Config.levels .psk4 0 1 ∧ nearest Config.levels .qam8 1 0 ∧ nearest Config.levels .qam16 15 11 := by decide +kernel

theorem witness_StepKeepsTheInvariant : Inv busy ∧ step busy = .next busyHold := ⟨inv_busy, rfl⟩

theorem witness_StepNeverStopsUnderTheInvariant : Inv busyLast ∧ Inv failed := ⟨inv_busyLast, inv_failed⟩

/-- The environment fields are no part of the invariants. -/
theorem inv_offering {s : State} (h : Inv s) (w : Word) : Inv (offering w s) := by
  obtain ⟨h1, h2, h3, h4, h5, h6, h7, h8, h9, h10, h11, h12, h13, h14⟩ := h
  refine ⟨h1, h2, h3, h4, h5, h6, h7, h8, h9, h10, h11, fun hb => ?_, h13, h14⟩
  obtain ⟨sc, k1, k2, k3, k4, k5, k6, k7, k8, k9⟩ := h12 hb
  refine ⟨sc, k1, k2, k3, k4, k5, k6, ?_, k8, k9⟩
  rw [groupReg_congr (s := s) (u := offering w s) rfl fun _ _ => rfl]
  exact k7

theorem witness_StateChangesOnlyAsListed :
    (Inv (offering 0x5000 ready) ∧ step (offering 0x5000 ready) = .next busy ∧ RunValid ready .psk4) ∧
    (Inv (offering 0x3000 ready) ∧ step (offering 0x3000 ready) = .next { ready with
      stat := .error, cause := .illegalCommand, einfo := 0x3000 }) ∧
    (Inv busyLast ∧ (edgeNow busyLast).outReady = true ∧ beatLast busyLast = true) ∧
    (Inv (offering 0x1000 failed) ∧ step (offering 0x1000 failed) = .next { idleWith 2 1 [1, 0, 1] with len := 0 }) :=
  ⟨⟨inv_offering inv_ready _, rfl, by decide⟩, ⟨inv_offering inv_ready _, rfl⟩, ⟨inv_busyLast, rfl, rfl⟩,
    ⟨inv_offering inv_failed _, rfl⟩⟩

theorem witness_DoneFollowsTheLastBeat :
    Inv busyLast ∧ ∃ t, step busyLast = .next t ∧ t.done = true ∧ BeatAccepted busyLast ∧ beatLast busyLast = true :=
  ⟨inv_busyLast, _, rfl, rfl, by decide, rfl⟩

theorem witness_InputsFrozenDuringTransmission :
    busy.stat = .busy ∧ (edgeNow busy).rst = false ∧ step busy = .next busyHold := ⟨rfl, rfl, rfl⟩

theorem witness_OutputHistoryIsAppendOnly :
    ((edgeNow busy).rst = false ∧ step busy = .next busyHold ∧ BeatAccepted busy) ∧
    ((edgeNow ready).rst = false ∧ step ready = .next ready ∧ ¬ BeatAccepted ready) :=
  ⟨⟨rfl, rfl, by decide⟩, ⟨rfl, rfl, by decide⟩⟩

theorem witness_TrapWritesOnlyTheErrorRegisters :
    (offering 0x5000 State.reset).stat ≠ .error ∧
      step (offering 0x5000 State.reset) = .next { State.reset with stat := .error, cause := .unknownScheme, einfo := 7 } :=
  ⟨by decide, rfl⟩

theorem witness_RunEmitsTheWholeTransmission :
    Inv ready ∧ ready.stat = .idle ∧ RunValid ready .psk4 ∧ ReadySink ready := ⟨inv_ready, rfl, by decide, by decide⟩

theorem witness_RepeatedRunRepeatsTheSignal :
    Inv ready ∧ ready.stat = .idle ∧ RunValid ready .psk4 ∧ ReadySink ready := witness_RunEmitsTheWholeTransmission

/-- `n` at 1 and at `NMAX`; the last symbol and the last offset. -/
theorem witness_SignalHasOneHeldSymbolPerGroup :
    0 < (State.reset.nsps).toNat ∧ 0 < Config.nMax ∧ 255 < Config.maxBits ∧ 254 < Config.nMax := by decide

/-- Two edges: a stall of the sink, then an accepted beat. -/
theorem witness_InputTimingOnlyDelays :
    (∀ e ∈ [EdgeInput.mk false true false, EdgeInput.mk false false true], e.rst = false) ∧
      Sys2Proof.core.run 2 { busy with edges := [⟨false, true, false⟩, ⟨false, false, true⟩] } = .next busyHold :=
  ⟨by decide, rfl⟩

theorem witness_CellsAboveLenNeverMatter :
    AgreeBelowLen ready { ready with buf := ready.buf.write 4 1 } ∧ step ready = .next ready :=
  ⟨⟨rfl, by decide⟩, rfl⟩

/-- Operands at the ends of their ranges; the characters with the codes 0 and 127. -/
theorem witness_AssemblerEmitsLegalWords :
    ((7 : Nat) ≤ 7 ∧ 1 ≤ 255 ∧ (255 < 256 ∨ 256 = 0)) ∧
    ((Char.ofNat 0).toNat < 128 ∧ (Char.ofNat 127).toNat < 128 ∧ ∀ c ∈ ['1', ' '], c.toNat < 128) ∧
    (assemble (.setsch (.name "16qam")) = some [0x2004] ∧ assemble (.setn 255) = some [0x30FF]) ∧
    (∀ str ∈ [['1'], [], ['0', '1']], ∀ c ∈ str, c.toNat < 128) :=
  ⟨by omega, by simp, by decide, by simp⟩

/-- R93 on a line with two arguments: the separator is not pushed. -/
theorem test_assemble_sendargs :
    (∀ n, AsmLine.sendargs (.name "16qam") 255 [['1'], ['0']] ≠ .word n) ∧
    assemble (.sendargs (.name "16qam") 255 [['1'], ['0']]) = some [0x1000, 0x2004, 0x30FF, 0x4031, 0x4030, 0x5000] :=
  ⟨(fun _ h => by cases h), by decide⟩

end Sys2Proof.Tests
end

section
/-! PROOFS. The statements about the registers, the status pins and the status port (10_state.md R44, R45, R49, R50, R52), with
the lemmas they need: the pins as functions of `STATE`, the bits of a status word, and the inversion of an issued word. -/

namespace Sys2Proof.Machine

/-! ### Pins -/

@[simp] theorem cmdReady_eq_true_iff (s : State) : cmdReady s = true ↔ s.stat ≠ .busy := by simp [cmdReady]

@[simp] theorem outValid_eq_true_iff (s : State) : outValid s = true ↔ s.stat = .busy := by simp [outValid]

@[simp] theorem errPin_eq_true_iff (s : State) : errPin s = true ↔ s.stat = .error := by simp [errPin]

@[simp] theorem busyPin_eq_true_iff (s : State) : busyPin s = true ↔ s.stat = .busy := by simp [busyPin]

@[simp] theorem donePin_eq (s : State) : donePin s = s.done := rfl

/-- While no beat is offered every field of the output port is 0 (R48). -/
theorem outPort_of_not_busy {s : State} (h : s.stat ≠ .busy) : outPort s = zeroBeat := by
  simp [outPort, h]

/-! ### Reset -/

/-- Every state that a reset edge leaves has the values of R50, whatever the state before it was. -/
theorem resetValues_resetBlock (s : State) : ResetValues (resetBlock s) where
  sch := resetBlock_sch s
  nsps := resetBlock_nsps s
  len := resetBlock_len s
  stat := resetBlock_stat s
  done := resetBlock_done s
  cause := resetBlock_cause s
  sub := resetBlock_sub s
  einfo := resetBlock_einfo s
  nsym := resetBlock_nsym s
  si := resetBlock_si s
  ri := resetBlock_ri s
  t := resetBlock_t s
  grp := resetBlock_grp s
  glen := resetBlock_glen s
  symI := resetBlock_symI s
  symQ := resetBlock_symQ s
  out := resetBlock_out s
  cmdReady := by simp
  outValid := by simp [← Bool.not_eq_true]
  outPort := outPort_of_not_busy (by simp)
  err := by simp [← Bool.not_eq_true]
  donePin := by simp
  busy := by simp [← Bool.not_eq_true]

/-- A reset edge at the reset state keeps it. -/
theorem resetBlock_reset : resetBlock State.reset = State.reset := rfl

/-! ### The status port -/

/-- `GRPW` has `GRP` in its low four bits, `GLEN` in the next three, and zeros above (R44). -/
theorem zext16_append_getLsbD (glen : BitVec 3) (grp : BitVec 4) (j : Nat) :
    (zext16 (glen ++ grp)).getLsbD j = if j < 4 then grp.getLsbD j else glen.getLsbD (j - 4) := by
  rw [zext16, BitVec.getLsbD_setWidth, BitVec.getLsbD_append]
  by_cases hj : j < 16
  · simp [hj]
  · simp [hj, show ¬ j < 4 by omega, BitVec.getLsbD_of_ge glen (j - 4) (by omega)]

/-- No register has a number above 11 (R44). -/
theorem srData_of_ge {n : BitVec 4} (h : 12 ≤ n.toNat) (s : State) : srData s n = 0 := by
  obtain h | h | h | h : n.toNat = 12 ∨ n.toNat = 13 ∨ n.toNat = 14 ∨ n.toNat = 15 := by omega
  all_goals simp [srData, h]

/-- The `STATUS` word bit by bit (R45). -/
theorem statusWord_getLsbD (s : State) (j : Nat) :
    (statusWord s).getLsbD j =
      if j < 2 then s.stat.code.getLsbD j
      else if j = 2 then s.done
      else if j = 3 then cplxOf s.sch
      else if j < 7 then s.cause.code.getLsbD (j - 4)
      else s.sub.code.getLsbD (j - 7) := by
  have hfields : (statusWord s).getLsbD j =
      (0#7 ++ (s.sub.code ++ (s.cause.code ++ (BitVec.ofBool (cplxFlag s) ++
        (BitVec.ofBool s.done ++ s.stat.code)))) : BitVec (7 + (2 + (3 + (1 + (1 + 2)))))).getLsbD j := rfl
  rw [hfields]
  simp only [BitVec.getLsbD_append, BitVec.getLsbD_zero, BitVec.getLsbD_ofBool, cplxFlag]
  obtain h | rfl | rfl | h | h | h : j < 2 ∨ j = 2 ∨ j = 3 ∨ 4 ≤ j ∧ j < 7 ∨ 7 ≤ j ∧ j < 9 ∨ 9 ≤ j := by omega
  · simp [h, show j < 3 by omega, show j < 4 by omega, show j < 7 by omega, show j < 9 by omega]
  · simp
  · simp
  · simp [h, show ¬ j < 2 by omega, show ¬ j < 4 by omega, show j ≠ 2 by omega, show j ≠ 3 by omega,
      show j < 9 by omega]
  · simp [h, show ¬ j < 2 by omega, show ¬ j < 7 by omega, show j ≠ 2 by omega, show j ≠ 3 by omega]
  · simp [show ¬ j < 2 by omega, show ¬ j < 7 by omega, show ¬ j < 9 by omega, show j ≠ 2 by omega, show j ≠ 3 by omega,
      BitVec.getLsbD_of_ge s.sub.code (j - 7) (by omega)]

/-! ### What an issued word can do -/

/-- What a word issued outside `BUSY` makes of the state: `CLR`, a word discarded in `ERROR` (R210), and one constructor for
each way a word can go in `IDLE`. -/
inductive IssueEffect (w : Word) (s : State) : State → Prop where
  | cleared (hw : decode w = .command .clr) : IssueEffect w s (clearToIdle s)
  | discarded (he : s.stat = .error) (hw : decode w ≠ .command .clr) : IssueEffect w s s
  | nop (hi : s.stat = .idle) (hw : decode w = .command .nop) : IssueEffect w s s
  | setsch (hi : s.stat = .idle) (c : SchemeCode) (hw : decode w = .command (.setsch c)) :
      IssueEffect w s { s with sch := c }
  | setn (hi : s.stat = .idle) (n : BitVec 8) (hw : decode w = .command (.setn n)) : IssueEffect w s { s with nsps := n }
  | badChar (hi : s.stat = .idle) (c : CharCode) (hw : decode w = .command (.push c)) (hc : digit c = none) :
      IssueEffect w s (trap ⟨.invalidInput, .badChar, zext16 c⟩ s)
  | overflow (hi : s.stat = .idle) (c : CharCode) (d : Bit) (hw : decode w = .command (.push c)) (hc : digit c = some d)
      (hfull : Config.maxBits ≤ s.len.toNat) : IssueEffect w s (trap ⟨.overflow, .noSub, zext16 c⟩ s)
  | appended (hi : s.stat = .idle) (c : CharCode) (d : Bit) (hw : decode w = .command (.push c)) (hc : digit c = some d)
      (hroom : s.len.toNat < Config.maxBits) : IssueEffect w s (appendBit d s)
  | runRaised (hi : s.stat = .idle) (r : Trap) (hw : decode w = .command .run) (hr : runChecked s = .error r) :
      IssueEffect w s (trap r s)
  | runStarted (hi : s.stat = .idle) (sc : Scheme) (hw : decode w = .command .run) (hv : RunValid s sc) :
      IssueEffect w s (started sc (s.len.toNat / sc.bits) s)
  | illegal (hi : s.stat = .idle) (hw : (decode w).instr? = none) :
      IssueEffect w s (trap ⟨.illegalCommand, .noSub, w⟩ s)

/-- `CLR` executes wherever a command can be issued (R176). -/
theorem exec_clr {s : State} (hb : s.stat ≠ .busy) : exec .clr s = .next (clearToIdle s) := by
  show Host.Outcome.next (whenReady clearToIdle s) = _
  rw [whenReady_of_not_busy hb]

/-- In `ERROR` every command but `CLR` is without effect (R210). -/
theorem exec_in_error {s : State} (he : s.stat = .error) {i : Instr} (hi : i ≠ .clr) : exec i s = .next s := by
  have hne : s.stat ≠ .idle := by simp [he]
  cases i with
  | clr => exact absurd rfl hi
  | nop => simp [exec, execNop, he]
  | setsch c => simp [exec, execSetsch, hne]
  | setn n => simp [exec, execSetn, hne]
  | push c => simp [exec, execPush, hne]
  | run => simp [exec, execRun, hne]

/-- In `ERROR` every word but `CLR`, an illegal one too, is discarded (R210). -/
theorem issueWord_in_error {s : State} (he : s.stat = .error) {w : Word} (hw : decode w ≠ .command .clr) :
    issueWord w s = .next s := by
  cases hd : decode w with
  | command i =>
    rw [issueWord_command hd]
    exact exec_in_error he fun hi => hw (by rw [hd, hi])
  | illegal v r => rw [issueWord_illegal (by simp [hd, Decoded.instr?]), illegalWord, whenIdle_of_not_idle (by simp [he])]

/-- A command executed in `IDLE` has the effect that is listed for it. -/
theorem exec_in_idle_effect {s : State} (hi : s.stat = .idle) {w : Word} {i : Instr} (hw : decode w = .command i) :
    ∃ t, exec i s = .next t ∧ IssueEffect w s t := by
  have hb : s.stat ≠ .busy := by simp [hi]
  cases i with
  | clr => exact ⟨_, exec_clr hb, .cleared hw⟩
  | nop => exact ⟨s, by simp [exec, execNop, hb], .nop hi hw⟩
  | setsch c => exact ⟨_, by simp [exec, execSetsch, hi], .setsch hi c hw⟩
  | setn n => exact ⟨_, by simp [exec, execSetn, hi], .setn hi n hw⟩
  | push c =>
    refine ⟨pushIdle c s, by simp [exec, execPush, hi], ?_⟩
    rcases pushIdle_cases c s with ⟨hc, hp⟩ | ⟨d, hc, hfull, hp⟩ | ⟨d, hc, hroom, hp⟩ <;> rw [hp]
    · exact .badChar hi c hw hc
    · exact .overflow hi c d hw hc hfull
    · exact .appended hi c d hw hc hroom
  | run =>
    refine ⟨runIdle s, by simp [exec, execRun, hi], ?_⟩
    cases hr : runChecked s with
    | error r => simpa [runIdle, hr] using IssueEffect.runRaised hi r hw hr
    | ok u =>
      rcases runChecked_cases s with ⟨-, he⟩ | ⟨_, -, -, he⟩ | ⟨_, -, -, -, he⟩ | ⟨sc, hv, -⟩
      · simp [hr] at he
      · simp [hr] at he
      · simp [hr] at he
      · rw [runIdle_valid hv]
        exact .runStarted hi sc hw hv

/-- Everything an issued word can do outside `BUSY`. -/
theorem issueWord_effect {s : State} (hb : s.stat ≠ .busy) (w : Word) : ∃ t, issueWord w s = .next t ∧ IssueEffect w s t := by
  cases hs : s.stat with
  | busy => exact absurd hs hb
  | error =>
    by_cases hw : decode w = .command .clr
    · exact ⟨_, by rw [issueWord_command hw, exec_clr hb], .cleared hw⟩
    · exact ⟨s, issueWord_in_error hs hw, .discarded hs hw⟩
  | idle =>
    cases hd : decode w with
    | command i =>
      rw [issueWord_command hd]
      exact exec_in_idle_effect hs hd
    | illegal v r =>
      have hw : (decode w).instr? = none := by simp [hd, Decoded.instr?]
      exact ⟨_, by rw [issueWord_illegal hw, illegalWord, whenIdle_idle hs], .illegal hs hw⟩

/-! ### The offered word -/

/-- At most one word is offered, so a word with a property is offered exactly when the offered one has it. -/
theorem exists_offers_iff {s : State} {w : Word} {ws : List Word} (h : Offers s w ws) (P : Word → Prop) :
    (∃ w' ws', Offers s w' ws' ∧ P w') ↔ P w := by
  constructor
  · rintro ⟨w', ws', ⟨-, -, hc⟩, hP⟩
    obtain ⟨rfl, -⟩ := List.cons.inj (h.2.2.symm.trans hc)
    exact hP
  · exact fun hP => ⟨w, ws, h, hP⟩

/-- A host that is silent or has no word left offers none (R221). -/
theorem not_offers_of_silent {s : State} (h : (edgeNow s).cmdValid = false ∨ s.cmds = []) (w : Word) (ws : List Word) :
    ¬ Offers s w ws := by
  rintro ⟨-, hv, hc⟩
  simp [hv, hc] at h

/-! ### DONE -/

/-- Of all issued words, those keep a `DONE` of 1 that leave the block in `IDLE` and are not `CLR` (R52). -/
theorem IssueEffect.done_iff {w : Word} {s t : State} (h : IssueEffect w s t) (hidle : s.done = true → s.stat = .idle) :
    t.done = true ↔ s.done = true ∧ t.stat = .idle ∧ decode w ≠ .command .clr := by
  cases h with
  | cleared hw => simp [hw]
  | discarded he hw => simp_all
  | nop hi hw => simp [hi, hw]
  | setsch hi c hw => simp [hi, hw]
  | setn hi n hw => simp [hi, hw]
  | badChar hi c hw hc => simp
  | overflow hi c d hw hc hfull => simp
  | appended hi c d hw hc hroom => simp [hi, hw]
  | runRaised hi r hw hr => simp
  | runStarted hi sc hw hv => simp [started]
  | illegal hi hw => simp

/-- Within a transmission the beat on offer is the last one exactly when neither a sample nor a symbol follows (R152, R153). -/
theorem beatLast_iff_nothing_follows {s : State} (hsi : s.si.toNat < s.nsym.toNat) (hri : s.ri.toNat < s.nsps.toNat) :
    beatLast s = true ↔ ¬ moreSamples s ∧ ¬ moreSymbols s := by
  simp only [beatLast, Bool.and_eq_true, beq_iff_eq]
  omega

/-- The emit step sets `DONE` exactly at the last beat (R52, R152). -/
theorem emitStep_done_iff {s t : State} (hsi : s.si.toNat < s.nsym.toNat) (hri : s.ri.toNat < s.nsps.toNat)
    (hd : s.done = false) (h : emitStep s = .next t) : t.done = true ↔ beatLast s = true := by
  rw [beatLast_iff_nothing_follows hsi hri]
  rcases emitStep_cases s with ⟨hm, he⟩ | ⟨-, -, -, he⟩ | ⟨-, hm, sc, -, he⟩ | ⟨hm, hm', he⟩ <;> rw [he] at h <;> cases h
  · simp [nextSample, hd, hm]
  · simp [enteredSymbol, hd, hm]
  · simp [hm, hm']

/-- In `BUSY` the transmission is not done (R43 item 4). -/
theorem Inv.not_done_of_busy {s : State} (h : Inv s) (hb : s.stat = .busy) : s.done = false := by
  obtain ⟨sc, htr⟩ := h.busy hb
  exact htr.notDone

/-- `DONE` is 1 in `IDLE` only (R52). -/
theorem Inv.idle_of_done {s : State} (h : Inv s) (hd : s.done = true) : s.stat = .idle := (h.done hd).1

end Sys2Proof.Machine

open Sys2Proof Sys2Proof.Machine

/-- Settles O41, by cases on what the step does: reset, an issued word, waiting, an accepted beat, a stalled beat. -/
theorem doneFollowsTheLastBeat : Obligations.DoneFollowsTheLastBeat := by
  intro s t hinv hstep
  rcases step_cases s with ⟨hr, he⟩ | ⟨hr, hb, w, ws, ho, he⟩ | ⟨hr, hb, hn, he⟩ | ⟨hacc, he⟩ | ⟨hr, hb, hs, he⟩
  · obtain rfl : resetBlock (dropEdge s) = t := Host.Outcome.next.inj (he.symm.trans hstep)
    simp [hr]
  · obtain ⟨u, hu, heff⟩ := issueWord_effect (s := issued s ws) hb w
    obtain rfl : u = t := Host.Outcome.next.inj (hu.symm.trans (he.symm.trans hstep))
    have hacc : ¬ BeatAccepted s := fun h => hb h.1
    have hclr := exists_offers_iff ho (decode · = .command .clr)
    simp only [heff.done_iff hinv.idle_of_done, hclr, issued_done, hr, hacc, false_and, false_or, true_and]
  · obtain rfl : dropEdge s = t := Host.Outcome.next.inj (he.symm.trans hstep)
    have hacc : ¬ BeatAccepted s := fun h => hb h.1
    have hclr : ¬ ∃ w ws, Offers s w ws ∧ decode w = .command .clr := fun ⟨w, ws, ho, _⟩ => not_offers_of_silent hn w ws ho
    simpa only [hr, hacc, hclr, dropEdge_done, dropEdge_stat, false_and, false_or, true_and, not_false_eq_true, and_true,
      iff_self_and] using hinv.idle_of_done
  · obtain ⟨sc, htr⟩ := hinv.busy hacc.1
    have hlast : t.done = true ↔ beatLast s = true :=
      emitStep_done_iff (s := dropEdge s) htr.siLt hinv.riLt htr.notDone (he.symm.trans hstep)
    have hd : ¬ s.done = true := by simp [htr.notDone]
    have hr : (edgeNow s).rst = false := hacc.2.1
    rw [hlast, and_iff_right hr, and_iff_right hacc, or_iff_left fun h => hd h.1]
  · obtain rfl : dropEdge s = t := Host.Outcome.next.inj (he.symm.trans hstep)
    simp [hinv.not_done_of_busy hb, hs]

/-- Settles O1: the reset state is what a reset edge leaves. -/
theorem resetStateHasSpecifiedValues : Obligations.ResetStateHasSpecifiedValues := by
  unfold Obligations.ResetStateHasSpecifiedValues
  rw [← resetBlock_reset]
  exact resetValues_resetBlock State.reset

/-- Settles O26. -/
theorem statusPinsAreLevels : Obligations.StatusPinsAreLevels := fun s =>
  ⟨errPin_eq_true_iff s, donePin_eq s, busyPin_eq_true_iff s⟩

/-- Settles O27: each named register is read by the definition of the port; the word of number 9 is taken apart bit by bit. -/
theorem statusPortReadsTheRegisters : Obligations.StatusPortReadsTheRegisters := by
  intro s
  have hgrpw : srData s 9 = zext16 (s.glen ++ s.grp) := rfl
  refine ⟨rfl, rfl, rfl, rfl, rfl, rfl, rfl, rfl, rfl, ⟨?_, ?_, ?_⟩, rfl, rfl, fun n hn => srData_of_ge hn s⟩
  all_goals
    apply BitVec.eq_of_getLsbD_eq
    intro j hj
    rw [hgrpw, BitVec.getLsbD_extractLsb', zext16_append_getLsbD]
  · simp [hj]
  · simp [hj]
  · simp [show ¬ 7 + j < 4 by omega, BitVec.getLsbD_of_ge s.glen (7 + j - 4) (by omega)]

/-- Settles O28: each field is read off the bits of the word. -/
theorem statusWordLayout : Obligations.StatusWordLayout := by
  refine ⟨fun s => ⟨?stat, ?done, ?cplx, ?cause, ?sub, ?zero⟩, by decide, by decide, by decide⟩
  case done => exact statusWord_getLsbD s 2
  case cplx => exact statusWord_getLsbD s 3
  all_goals
    apply BitVec.eq_of_getLsbD_eq
    intro j hj
    rw [BitVec.getLsbD_extractLsb', statusWord_getLsbD]
  case stat => simp [hj]
  case cause => simp [hj, show ¬ 4 + j < 2 by omega, show 4 + j ≠ 2 by omega, show 4 + j ≠ 3 by omega, show 4 + j < 7 by omega]
  case sub => simp [hj, show ¬ 7 + j < 2 by omega, show 7 + j ≠ 2 by omega, show 7 + j ≠ 3 by omega]
  case zero => simp [hj, show ¬ 9 + j < 2 by omega, show 9 + j ≠ 2 by omega, show 9 + j ≠ 3 by omega, show ¬ 9 + j < 7 by omega,
      BitVec.getLsbD_of_ge s.sub.code (9 + j - 7) (by omega)]
end

section
/-! PROOFS. The statement about the buffer and the inputs of a transmission (20_memory.md R74), with the frame of the emit step it
needs. -/

namespace Sys2Proof.Machine

/-- No branch of the emit step writes the buffer, `LEN`, `SCH` or `NSPS` (R74, R152). -/
theorem emitStep_keeps_inputs {s t : State} (h : emitStep s = .next t) :
    t.buf = s.buf ∧ t.len = s.len ∧ t.sch = s.sch ∧ t.nsps = s.nsps := by
  rcases emitStep_cases s with ⟨-, he⟩ | ⟨-, -, -, he⟩ | ⟨-, -, sc, -, he⟩ | ⟨-, -, he⟩ <;> rw [he] at h
  · obtain rfl : nextSample s = t := Host.Outcome.next.inj h
    simp [nextSample]
  · cases h
  · obtain rfl : enteredSymbol sc s = t := Host.Outcome.next.inj h
    simp [enteredSymbol]
  · obtain rfl : finishTransmission s = t := Host.Outcome.next.inj h
    simp

end Sys2Proof.Machine

open Sys2Proof Sys2Proof.Machine

/-- Settles O42: in `BUSY` a step is either the emit step, which keeps the four inputs, or a stall, which only uses up the edge. -/
theorem inputsFrozenDuringTransmission : Obligations.InputsFrozenDuringTransmission := by
  intro s t hb hr hstep
  cases ho : (edgeNow s).outReady with
  | true =>
    have hemit : emitStep (dropEdge s) = .next t := (step_of_beatAccepted ⟨hb, hr, ho⟩).symm.trans hstep
    simpa using emitStep_keeps_inputs hemit
  | false =>
    obtain rfl : dropEdge s = t := Host.Outcome.next.inj ((step_of_stall hb hr ho).symm.trans hstep)
    simp
end

section
/-! PROOFS. The statement about the decoder on all 65536 words (30_encoding.md R94). A word is the number
`0x1000 * op + 0x100 * rz + imm8` of its fields (R81), so each range of R94 fixes the fields and with them the decoder's branch. -/

namespace Sys2Proof

/-! ### The fields as numbers -/

theorem opField_toNat (w : Word) : (opField w).toNat = w.toNat / 0x1000 := by
  have hlt : w.toNat / 0x1000 < 16 := by omega
  simpa [opField, Nat.shiftRight_eq_div_pow] using Nat.mod_eq_of_lt hlt

theorem rzField_toNat (w : Word) : (rzField w).toNat = w.toNat / 0x100 % 16 := by
  simp [rzField, Nat.shiftRight_eq_div_pow]

theorem immField_toNat (w : Word) : (immField w).toNat = w.toNat % 256 := by simp [immField]

theorem rzField_eq_zero_iff (w : Word) : rzField w = 0 ↔ w.toNat / 0x100 % 16 = 0 := by
  simp [BitVec.toNat_eq, rzField_toNat]

theorem immField_eq_zero_iff (w : Word) : immField w = 0 ↔ w.toNat % 256 = 0 := by
  simp [BitVec.toNat_eq, immField_toNat]

/-- The must-be-zero bits `cmd[7:3]` of `SETSCH` (R83). -/
theorem schemePadding_eq_zero_iff (w : Word) : w.extractLsb' 3 5 = 0 ↔ w.toNat / 8 % 32 = 0 := by
  simp [BitVec.toNat_eq, Nat.shiftRight_eq_div_pow]

/-- A word whose reserved field is 0 is put together from its opcode and its low byte. -/
theorem toNat_of_opField {w : Word} {op : BitVec 4} (hz : rzField w = 0) (ho : opField w = op) :
    w.toNat = 0x1000 * op.toNat + w.toNat % 256 := by
  rw [rzField_eq_zero_iff] at hz
  rw [← ho, opField_toNat]
  omega

/-- The word of a command without operand is its opcode alone (R86). -/
theorem toNat_of_opField_of_immField_zero {w : Word} {op : BitVec 4} (hz : rzField w = 0) (ho : opField w = op)
    (hi : immField w = 0) : w.toNat = 0x1000 * op.toNat := by
  rw [toNat_of_opField hz ho, (immField_eq_zero_iff w).mp hi, Nat.add_zero]

/-- The fields of the word `imm` places into the range of the opcode `op`. -/
theorem fields_of_toNat {w : Word} {op imm : Nat} (h : w.toNat = 0x1000 * op + imm) (hi : imm < 256) :
    rzField w = 0 ∧ (opField w).toNat = op ∧ immField w = BitVec.ofNat 8 imm := by
  refine ⟨(rzField_eq_zero_iff w).mpr ?_, ?_, BitVec.eq_of_toNat_eq ?_⟩
  · omega
  · rw [opField_toNat]; omega
  · rw [immField_toNat, BitVec.toNat_ofNat]; omega

/-! ### The word of each command, range by range -/

theorem decode_nop_word {w : Word} (h : w.toNat = 0) : decode w = .command .nop := by
  obtain ⟨hrz, hop, himm⟩ := fields_of_toNat (op := 0) (imm := 0) h (by omega)
  simp [decode, decodePlain, hrz, hop, himm]

theorem decode_clr_word {w : Word} (h : w.toNat = 0x1000) : decode w = .command .clr := by
  obtain ⟨hrz, hop, himm⟩ := fields_of_toNat (op := 1) (imm := 0) h (by omega)
  simp [decode, decodePlain, hrz, hop, himm]

theorem decode_run_word {w : Word} (h : w.toNat = 0x5000) : decode w = .command .run := by
  obtain ⟨hrz, hop, himm⟩ := fields_of_toNat (op := 5) (imm := 0) h (by omega)
  simp [decode, decodePlain, hrz, hop, himm]

theorem decode_setsch_word {w : Word} {c : Nat} (h : w.toNat = 0x2000 + c) (hc : c < 8) :
    decode w = .command (.setsch (BitVec.ofNat 3 c)) := by
  obtain ⟨hrz, hop, -⟩ := fields_of_toNat (op := 2) h (by omega)
  have hpad : w.extractLsb' 3 5 = 0 := (schemePadding_eq_zero_iff w).mpr (by omega)
  have hcode : w.extractLsb' 0 3 = BitVec.ofNat 3 c := BitVec.eq_of_toNat_eq <| by
    rw [BitVec.extractLsb'_toNat, BitVec.toNat_ofNat, Nat.shiftRight_zero]; omega
  simp [decode, decodeSetsch, hrz, hop, hpad, hcode]

/-- `SETN 0` is left out (R89). -/
theorem decode_setn_word {w : Word} {n : Nat} (h : w.toNat = 0x3000 + n) (hpos : 0 < n) (hn : n < 256) :
    decode w = .command (.setn (BitVec.ofNat 8 n)) := by
  obtain ⟨hrz, hop, himm⟩ := fields_of_toNat (op := 3) h hn
  have hne : immField w ≠ 0 := by rw [ne_eq, immField_eq_zero_iff]; omega
  rw [← himm]
  simpa [decode, decodeSetn, hrz, hop] using hne

theorem decode_push_word {w : Word} {c : Nat} (h : w.toNat = 0x4000 + c) (hc : c < 256) :
    decode w = .command (.push (BitVec.ofNat 8 c)) := by
  obtain ⟨hrz, hop, himm⟩ := fields_of_toNat (op := 4) h hc
  simp [decode, hrz, hop, himm]

/-! ### No other word is a command -/

/-- The numbers of the legal words, by the ranges of R82 to R89. -/
def IsLegalNumber (n : Nat) : Prop :=
  n = 0 ∨ n = 0x1000 ∨ (0x2000 ≤ n ∧ n ≤ 0x2007) ∨ (0x3001 ≤ n ∧ n ≤ 0x30FF) ∨ (0x4000 ≤ n ∧ n ≤ 0x40FF) ∨ n = 0x5000

/-- The other direction of the six range lemmas: a word that is not illegal lies in one of the ranges. -/
theorem isLegalNumber_of_not_illegal {w : Word} (hw : ¬ ∃ r, decode w = .illegal w r) : IsLegalNumber w.toNat := by
  unfold IsLegalNumber
  rcases decode_cases w with ⟨-, hz, ho, hi⟩ | ⟨-, hz, ho, hi⟩ | ⟨-, hz, ho, hpad⟩ | ⟨-, hz, ho, hi⟩ | ⟨-, hz, ho⟩ |
    ⟨-, hz, ho, hi⟩ | hill
  · have hword : w.toNat = 0x1000 * 0 := toNat_of_opField_of_immField_zero hz ho hi
    omega
  · have hword : w.toNat = 0x1000 * 1 := toNat_of_opField_of_immField_zero hz ho hi
    omega
  · have hword : w.toNat = 0x1000 * 2 + w.toNat % 256 := toNat_of_opField hz ho
    rw [schemePadding_eq_zero_iff] at hpad
    omega
  · have hword : w.toNat = 0x1000 * 3 + w.toNat % 256 := toNat_of_opField hz ho
    rw [ne_eq, immField_eq_zero_iff] at hi
    omega
  · have hword : w.toNat = 0x1000 * 4 + w.toNat % 256 := toNat_of_opField hz ho
    omega
  · have hword : w.toNat = 0x1000 * 5 := toNat_of_opField_of_immField_zero hz ho hi
    omega
  · exact absurd hill hw

end Sys2Proof

open Sys2Proof

/-- Settles O4: inside a range of R94 by the range's own lemma, with the operand as the distance from the range's start; past all
of them because the decoder accepts no other word. -/
theorem decodeFollowsWordRanges : Obligations.DecodeFollowsWordRanges := by
  intro w
  split_ifs with hnop hclr hsetsch hsetn hpush hrun
  · exact decode_nop_word hnop
  · exact decode_clr_word hclr
  · exact decode_setsch_word (by omega) (by omega)
  · exact decode_setn_word (by omega) (by omega) (by omega)
  · exact decode_push_word (by omega) (by omega)
  · exact decode_run_word hrun
  · by_contra hill
    obtain h | h | h | h | h | h := isLegalNumber_of_not_illegal hill
    all_goals contradiction
end

section
/-! PROOFS. The statements about `PUSH` and the digit test (40_bit_grouper.md R101, R102): the word of `PUSH`, one equation for
each way `PUSH` goes in `IDLE`, and the digit of each code. -/

namespace Sys2Proof.Machine

/-! ### Digits -/

theorem digit_ch0 : digit Config.ch0 = some 0 := rfl

theorem digit_ch1 : digit Config.ch1 = some 1 := rfl

theorem digit_of_ne {c : CharCode} (h0 : c ≠ Config.ch0) (h1 : c ≠ Config.ch1) : digit c = none := by
  rw [digit, if_neg h0, if_neg h1]

/-! ### PUSH -/

/-- The words of `PUSH` start at `0x4000`, and their distance from it is the character code (R82, R85). -/
theorem decode_push_offset (c : CharCode) : decode (0x4000 + zext16 c) = .command (.push c) := by
  have hword : (0x4000 + zext16 c).toNat = 0x4000 + c.toNat := by
    rw [zext16]
    bv_omega
  simpa using decode_push_word hword c.isLt

theorem exec_push_idle {s : State} (hi : s.stat = .idle) (c : CharCode) : exec (.push c) s = .next (pushIdle c s) := by
  show Host.Outcome.next (whenIdle (pushIdle c) s) = _
  rw [whenIdle_idle hi]

/-- The digit test comes first, so a bad character raises `BADCHAR` on a full buffer too (R209). -/
theorem pushIdle_of_not_digit {c : CharCode} (hc : digit c = none) (s : State) :
    pushIdle c s = trap ⟨.invalidInput, .badChar, zext16 c⟩ s := by
  simp [pushIdle, hc]

theorem pushIdle_of_full {c : CharCode} {d : Bit} (hc : digit c = some d) {s : State}
    (hfull : Config.maxBits ≤ s.len.toNat) : pushIdle c s = trap ⟨.overflow, .noSub, zext16 c⟩ s := by
  simp [pushIdle, hc, hfull]

theorem pushIdle_of_room {c : CharCode} {d : Bit} (hc : digit c = some d) {s : State}
    (hroom : s.len.toNat < Config.maxBits) : pushIdle c s = appendBit d s := by
  simp [pushIdle, hc, hroom]

/-- Below the capacity `LEN` has room to count on: its 9 bits do not wrap (R8, R43). -/
theorem len_succ_toNat {s : State} (hroom : s.len.toNat < Config.maxBits) : (s.len + 1).toNat = s.len.toNat + 1 := by
  have hlt : s.len.toNat < 256 := hroom
  bv_omega

end Sys2Proof.Machine

open Sys2Proof Sys2Proof.Machine

/-- Settles O18: the word by its number; in `IDLE` one equation of `pushIdle` for each clause, the cells by the laws of a buffer
write. -/
theorem pushAppendsDigitOrRaises : Obligations.PushAppendsDigitOrRaises := by
  intro c s _
  refine ⟨decode_push_offset c, ?appended, ?badChar, ?overflow, ?discarded, ?busy⟩
  case appended =>
    intro hi d hc hroom
    refine ⟨s.buf.write (pushAddr s) d, ?_, len_succ_toNat hroom, memory_read_write_same .., ?_⟩
    · rw [exec_push_idle hi, pushIdle_of_room hc hroom]
      rfl
    · exact fun a ha => memory_read_write_other s.buf d ha
  case badChar =>
    intro hi hc
    rw [exec_push_idle hi, pushIdle_of_not_digit hc]
    rfl
  case overflow =>
    intro hi hdigit hlen
    obtain ⟨d, hc⟩ := Option.isSome_iff_exists.mp hdigit
    rw [exec_push_idle hi, pushIdle_of_full hc hlen.ge]
    rfl
  case discarded => exact fun he => exec_in_error he (by simp)
  case busy => exact fun hb => by simp [cmdReady, hb]

/-- Settles O30, by cases on the code: each of the two digits, and any other code. -/
theorem onlyTwoCodesAreDigits : Obligations.OnlyTwoCodesAreDigits := by
  intro c
  by_cases h0 : c = Config.ch0
  · rw [h0, digit_ch0]
    decide
  by_cases h1 : c = Config.ch1
  · rw [h1, digit_ch1]
    decide
  rw [digit_of_ne h0 h1]
  exact ⟨iff_of_false nofun h0, iff_of_false nofun h1, iff_of_true rfl ⟨h0, h1⟩⟩
end

section
/-! PROOFS. The statements about `map` and its tables (41_symbol_mapper.md R120, R132). Every table is the table of the spec's
formulas, and in a formula each coordinate is a level times a unit; a level whose product with the unit is a sample code can be
read off that code again, and with it the bits of the group. -/

namespace Sys2Proof.Machine

/-! ### Level codes -/

/-- Modulo `2^16` a level times a unit is the product of the two codes (R13). -/
theorem levelCode_eq_mul (a : Int) (u : Sample) : levelCode a u = BitVec.ofInt 16 a * u := by
  rw [levelCode, BitVec.ofInt_mul, BitVec.ofInt_toInt]

@[simp] theorem levelCode_one (u : Sample) : levelCode 1 u = u := by simp [levelCode_eq_mul]

@[simp] theorem levelCode_three (u : Sample) : levelCode 3 u = 3 * u := by simp [levelCode_eq_mul]

@[simp] theorem levelCode_neg (a : Int) (u : Sample) : levelCode (-a) u = -levelCode a u := by
  simp [levelCode_eq_mul, BitVec.ofInt_neg]

/-- The integer `a` times `u` fits in the 16 bits of a sample code (R13). -/
def LevelFits (a : Int) (u : Sample) : Prop := -2 ^ 15 ≤ a * u.toInt ∧ a * u.toInt < 2 ^ 15

theorem levelCode_toInt {a : Int} {u : Sample} (h : LevelFits a u) : (levelCode a u).toInt = a * u.toInt :=
  BitVec.toInt_ofInt_eq_self (by decide) h.1 h.2

/-- Levels that fit are told apart by their codes. -/
theorem levelCode_inj {a b : Int} {u : Sample} (hu : u ≠ 0) (ha : LevelFits a u) (hb : LevelFits b u)
    (h : levelCode a u = levelCode b u) : a = b := by
  have hmul : a * u.toInt = b * u.toInt := by rw [← levelCode_toInt ha, ← levelCode_toInt hb, h]
  have hne : u.toInt ≠ 0 := fun h0 => hu (BitVec.eq_of_toInt_eq h0)
  exact mul_right_cancel₀ hne hmul

/-! ### The levels of the five schemes -/

theorem signOf_inj {s t : Bool} (h : signOf s = signOf t) : s = t := by
  revert s t; decide

theorem lev_inj {s m t n : Bool} (h : lev s m = lev t n) : s = t ∧ m = n := by
  revert s m t n; decide

theorem signOf_eq_or (s : Bool) : signOf s = 1 ∨ signOf s = -1 := by
  cases s <;> decide

theorem lev_eq_or (s m : Bool) : lev s m = 1 ∨ lev s m = 3 ∨ lev s m = -1 ∨ lev s m = -3 := by
  cases s <;> cases m <;> decide

/-- The one code without a negative, `-2^15`, is no admitted unit. -/
theorem levelFits_signOf (s : Bool) {u : Sample} (hu : -2 ^ 15 < u.toInt) : LevelFits (signOf s) u := by
  have hlt : u.toInt < 2 ^ 15 := BitVec.toInt_lt
  rcases signOf_eq_or s with hs | hs <;> rw [LevelFits, hs] <;> omega

theorem levelFits_lev (s m : Bool) {u : Sample} (hlo : -2 ^ 15 < 3 * u.toInt) (hhi : 3 * u.toInt < 2 ^ 15) :
    LevelFits (lev s m) u := by
  rcases lev_eq_or s m with h | h | h | h <;> rw [LevelFits, h] <;> omega

theorem signCode_inj {s t : Bool} {u : Sample} (hu : u ≠ 0) (hfit : -2 ^ 15 < u.toInt)
    (h : levelCode (signOf s) u = levelCode (signOf t) u) : s = t :=
  signOf_inj (levelCode_inj hu (levelFits_signOf s hfit) (levelFits_signOf t hfit) h)

theorem levCode_inj {s m t n : Bool} {u : Sample} (hu : u ≠ 0) (hlo : -2 ^ 15 < 3 * u.toInt) (hhi : 3 * u.toInt < 2 ^ 15)
    (h : levelCode (lev s m) u = levelCode (lev t n) u) : s = t ∧ m = n :=
  lev_inj (levelCode_inj hu (levelFits_lev s m hlo hhi) (levelFits_lev t n hlo hhi) h)

/-! ### The rows of the tables -/

/-- The low `k` bits of a group, in transmission order (R14): first for `k = 1`, then for 2, 3 and 4. -/
theorem setWidth_one_eq_bits (g : BitVec 4) : g.setWidth 1 = BitVec.ofBool (groupBit 1 g 1) := by
  revert g; decide

theorem setWidth_two_eq_bits (g : BitVec 4) :
    g.setWidth 2 = BitVec.ofBool (groupBit 2 g 1) ++ BitVec.ofBool (groupBit 2 g 2) := by
  revert g; decide

theorem setWidth_three_eq_bits (g : BitVec 4) :
    g.setWidth 3 = BitVec.ofBool (groupBit 3 g 1) ++ (BitVec.ofBool (groupBit 3 g 2) ++ BitVec.ofBool (groupBit 3 g 3)) := by
  revert g; decide

theorem setWidth_four_eq_bits (g : BitVec 4) :
    g.setWidth 4 = BitVec.ofBool (groupBit 4 g 1) ++
      (BitVec.ofBool (groupBit 4 g 2) ++ (BitVec.ofBool (groupBit 4 g 3) ++ BitVec.ofBool (groupBit 4 g 4))) := by
  revert g; decide

theorem ookTable_get (l : Config.Levels) (b1 : Bool) : (ookTable l).get (BitVec.ofBool b1).toFin = formulaOok l b1 := by
  cases b1 <;> rfl

theorem psk2Table_get (l : Config.Levels) (b1 : Bool) : (psk2Table l).get (BitVec.ofBool b1).toFin = formulaPsk2 l b1 := by
  cases b1 <;> simp [formulaPsk2, signOf] <;> rfl

theorem psk4Table_get (l : Config.Levels) (b1 b2 : Bool) :
    (psk4Table l).get (BitVec.ofBool b1 ++ BitVec.ofBool b2).toFin = formulaPsk4 l b1 b2 := by
  cases b1 <;> cases b2 <;> simp [formulaPsk4, signOf] <;> rfl

theorem qam8Table_get (l : Config.Levels) (b1 b2 b3 : Bool) :
    (qam8Table l).get (BitVec.ofBool b1 ++ (BitVec.ofBool b2 ++ BitVec.ofBool b3)).toFin = formulaQam8 l b1 b2 b3 := by
  cases b1 <;> cases b2 <;> cases b3 <;> simp [formulaQam8, lev, signOf] <;> rfl

theorem qam16Table_get (l : Config.Levels) (b1 b2 b3 b4 : Bool) :
    (qam16Table l).get (BitVec.ofBool b1 ++ (BitVec.ofBool b2 ++ (BitVec.ofBool b3 ++ BitVec.ofBool b4))).toFin =
      formulaQam16 l b1 b2 b3 b4 := by
  cases b1 <;> cases b2 <;> cases b3 <;> cases b4 <;> simp [formulaQam16, lev, signOf] <;> rfl

/-- A group selects the row of its bits, so every table is the table of its formula, for all values of the constants (R139). -/
theorem point_eq_formula (l : Config.Levels) (sc : Scheme) (g : BitVec 4) : sc.point l g = sc.formula l g := by
  cases sc with
  | ook => rw [Scheme.point, setWidth_one_eq_bits, ookTable_get, Scheme.formula]
  | psk2 => rw [Scheme.point, setWidth_one_eq_bits, psk2Table_get, Scheme.formula]
  | psk4 => rw [Scheme.point, setWidth_two_eq_bits, psk4Table_get, Scheme.formula]
  | qam8 => rw [Scheme.point, setWidth_three_eq_bits, qam8Table_get, Scheme.formula]
  | qam16 => rw [Scheme.point, Scheme.formula, ← qam16Table_get, ← setWidth_four_eq_bits, BitVec.setWidth_eq]

/-! ### The bits of a group from its point -/

/-- Of the two OOK points only that of bit 1 is off the origin (R123). -/
theorem formulaOok_i_ne_zero_iff {l : Config.Levels} (ha : l.aOok ≠ 0) (b1 : Bool) :
    (formulaOok l b1).i ≠ 0 ↔ b1 = true := by
  cases b1 with
  | false => simp [formulaOok]
  | true => simpa [formulaOok] using ha

theorem formulaOok_inj {l : Config.Levels} (ha : l.aOok ≠ 0) {b1 c1 : Bool} (h : formulaOok l b1 = formulaOok l c1) :
    b1 = c1 := by
  rw [Bool.eq_iff_iff, ← formulaOok_i_ne_zero_iff ha, ← formulaOok_i_ne_zero_iff ha, h]

theorem formulaPsk2_inj {l : Config.Levels} (hr : l.pskR ≠ 0) (hfit : -2 ^ 15 < l.pskR.toInt) {b1 c1 : Bool}
    (h : formulaPsk2 l b1 = formulaPsk2 l c1) : b1 = c1 :=
  signCode_inj hr hfit (congrArg Sym.i h)

theorem formulaPsk4_inj {l : Config.Levels} (hd : l.pskD ≠ 0) (hfit : -2 ^ 15 < l.pskD.toInt) {b1 b2 c1 c2 : Bool}
    (h : formulaPsk4 l b1 b2 = formulaPsk4 l c1 c2) : b1 = c1 ∧ b2 = c2 :=
  ⟨signCode_inj hd hfit (congrArg Sym.i h), signCode_inj hd hfit (congrArg Sym.q h)⟩

/-- The ring bit `b3` is in both levels, each sign bit in one of them. -/
theorem formulaQam8_inj {l : Config.Levels} (hu : l.qamU ≠ 0) (hlo : -2 ^ 15 < 3 * l.qamU.toInt)
    (hhi : 3 * l.qamU.toInt < 2 ^ 15) {b1 b2 b3 c1 c2 c3 : Bool} (h : formulaQam8 l b1 b2 b3 = formulaQam8 l c1 c2 c3) :
    b1 = c1 ∧ b2 = c2 ∧ b3 = c3 := by
  obtain ⟨h1, -⟩ := levCode_inj hu hlo hhi (congrArg Sym.i h)
  exact ⟨h1, levCode_inj hu hlo hhi (congrArg Sym.q h)⟩

theorem formulaQam16_inj {l : Config.Levels} (hu : l.qamU ≠ 0) (hlo : -2 ^ 15 < 3 * l.qamU.toInt)
    (hhi : 3 * l.qamU.toInt < 2 ^ 15) {b1 b2 b3 b4 c1 c2 c3 c4 : Bool}
    (h : formulaQam16 l b1 b2 b3 b4 = formulaQam16 l c1 c2 c3 c4) : b1 = c1 ∧ b2 = c2 ∧ b3 = c3 ∧ b4 = c4 := by
  obtain ⟨h1, h2⟩ := levCode_inj hu hlo hhi (congrArg Sym.i h)
  exact ⟨h1, h2, levCode_inj hu hlo hhi (congrArg Sym.q h)⟩

/-- A group of `k` bits is its low `k` bits. -/
theorem eq_of_setWidth_eq {k : Nat} {g h : BitVec 4} (hg : g.toNat < 2 ^ k) (hh : h.toNat < 2 ^ k)
    (heq : g.setWidth k = h.setWidth k) : g = h := by
  have hmod : g.toNat % 2 ^ k = h.toNat % 2 ^ k := by simpa using congrArg BitVec.toNat heq
  rw [Nat.mod_eq_of_lt hg, Nat.mod_eq_of_lt hh] at hmod
  exact BitVec.eq_of_toNat_eq hmod

/-! ### What `map` answers -/

theorem mapSymbol_of_no_scheme {c : SchemeCode} (hc : schemeOf c = none) (glen : BitVec 3) (g : BitVec 4) :
    mapSymbol c glen g = .error ⟨.unknownScheme, .noSub, zext16 c⟩ := by
  simp [mapSymbol, mapWith, hc]

theorem mapSymbol_of_wrong_length {c : SchemeCode} {sc : Scheme} (hc : schemeOf c = some sc) {glen : BitVec 3}
    (hg : glen.toNat ≠ sc.bits) (g : BitVec 4) :
    mapSymbol c glen g = .error ⟨.invalidGroupLength, .noSub, zext16 glen⟩ := by
  simp [mapSymbol, mapWith, hc, hg]

/-- With both checks passed `map` is the scheme's own function of the low `k` bits (R120). -/
theorem mapSymbol_eq_formula (sc : Scheme) (g : BitVec 4) :
    mapSymbol sc.code (lengthTag sc.bits) g = .ok (sc.formula Config.levels g) := by
  rw [mapSymbol_tag (schemeOf_eq_some.mpr rfl), point_eq_formula]

end Sys2Proof.Machine

open Sys2Proof Sys2Proof.Machine

/-- Settles O35: equal points give equal bits in the scheme's formula, and the low `k` bits are the whole group. -/
theorem everyTableIsABijection : Obligations.EveryTableIsABijection := by
  intro l sc g h ha hr hd hu hfits hg hh heq
  obtain ⟨hrFit, hdFit, huLo, huHi⟩ := hfits
  rw [point_eq_formula, point_eq_formula] at heq
  cases sc with
  | ook =>
    have h1 := formulaOok_inj ha heq
    exact eq_of_setWidth_eq hg hh (by simp only [Scheme.bits, setWidth_one_eq_bits, h1])
  | psk2 =>
    have h1 := formulaPsk2_inj hr hrFit heq
    exact eq_of_setWidth_eq hg hh (by simp only [Scheme.bits, setWidth_one_eq_bits, h1])
  | psk4 =>
    obtain ⟨h1, h2⟩ := formulaPsk4_inj hd hdFit heq
    exact eq_of_setWidth_eq hg hh (by simp only [Scheme.bits, setWidth_two_eq_bits, h1, h2])
  | qam8 =>
    obtain ⟨h1, h2, h3⟩ := formulaQam8_inj hu huLo huHi heq
    exact eq_of_setWidth_eq hg hh (by simp only [Scheme.bits, setWidth_three_eq_bits, h1, h2, h3])
  | qam16 =>
    obtain ⟨h1, h2, h3, h4⟩ := formulaQam16_inj hu huLo huHi heq
    exact eq_of_setWidth_eq hg hh (by simp only [Scheme.bits, setWidth_four_eq_bits, h1, h2, h3, h4])

/-- Settles O33: the two checks, then the same equation at each of the five schemes. -/
theorem mapChecksSchemeThenLength : Obligations.MapChecksSchemeThenLength := by
  intro c glen g
  refine ⟨fun hc => mapSymbol_of_no_scheme (kOf_eq_none.mp hc) glen g, ?length, ?ook, ?psk2, ?psk4, ?qam8, ?qam16⟩
  case length =>
    intro k hk hne
    obtain ⟨sc, hc, rfl⟩ := kOf_eq_some.mp hk
    exact mapSymbol_of_wrong_length hc hne g
  all_goals rintro rfl rfl
  case ook => exact mapSymbol_eq_formula .ook g
  case psk2 => exact mapSymbol_eq_formula .psk2 g
  case psk4 => exact mapSymbol_eq_formula .psk4 g
  case qam8 => exact mapSymbol_eq_formula .qam8 g
  case qam16 => exact mapSymbol_eq_formula .qam16 g
end

section
/-! PROOFS. The statements about `RUN`, the emit step and the output port, one event at a time (42_waveform_synth.md R151 to
R153): an equation for each way `RUN` goes in `IDLE`, and one for each branch of the emit step. -/

namespace Sys2Proof.Machine

/-! ### RUN -/

theorem exec_run_idle {s : State} (hi : s.stat = .idle) : exec .run s = .next (runIdle s) := by
  show Host.Outcome.next (whenIdle runIdle s) = _
  rw [whenIdle_idle hi]

theorem runIdle_of_no_scheme {s : State} (hc : kOf s.sch = none) :
    runIdle s = trap ⟨.unknownScheme, .noSub, zext16 s.sch⟩ s := by
  simp [runIdle, runChecked, hc]

theorem runIdle_of_checkLen_error {s : State} {k : Nat} {r : Trap} (hk : kOf s.sch = some k)
    (hr : checkLen s.len.toNat k = .error r) : runIdle s = trap r s := by
  simp [runIdle, runChecked, hk, hr]

@[simp] theorem checkLen_zero (k : Nat) : checkLen 0 k = .error ⟨.invalidInput, .empty, 0⟩ := rfl

theorem checkLen_of_remainder {len k : Nat} (h0 : len ≠ 0) (hmod : len % k ≠ 0) :
    checkLen len k = .error ⟨.invalidInput, .notMult, BitVec.ofNat 16 (len % k)⟩ := by
  simp [checkLen, h0, hmod]

/-! ### The emit step -/

theorem emitStep_of_moreSamples {s : State} (h : moreSamples s) : emitStep s = .next (nextSample s) := by
  rw [emitStep, if_pos h]
  rfl

theorem emitStep_of_moreSymbols {s : State} {sc : Scheme} (hc : schemeOf s.sch = some sc) (hr : ¬ moreSamples s)
    (hs : moreSymbols s) : emitStep s = .next (enteredSymbol sc s) := by
  rcases emitStep_cases s with ⟨h, -⟩ | ⟨-, -, h, -⟩ | ⟨-, -, sc', h, he⟩ | ⟨-, h, -⟩
  · exact absurd h hr
  · simp [hc] at h
  · obtain rfl : sc = sc' := Option.some.inj (hc.symm.trans h)
    exact he
  · exact absurd hs h

theorem emitStep_of_nothing_follows {s : State} (hr : ¬ moreSamples s) (hs : ¬ moreSymbols s) :
    emitStep s = .next (finishTransmission s) := by
  rw [emitStep, if_neg hr, if_neg hs]

/-! ### The output port -/

theorem outPort_of_busy {s : State} (hb : s.stat = .busy) : outPort s = currentBeat s := by
  simp [outPort, hb]

theorem beatSos_iff (s : State) : beatSos s = true ↔ s.ri = 0 := by simp [beatSos]

theorem beatLast_iff (s : State) :
    beatLast s = true ↔ s.si.toNat + 1 = s.nsym.toNat ∧ s.ri.toNat + 1 = s.nsps.toNat := by
  simp [beatLast]

end Sys2Proof.Machine

open Sys2Proof Sys2Proof.Machine

/-- Settles O19: in `IDLE` one equation of `runIdle` for each clause, the two length errors through `check_len`. -/
theorem runStartsTheTransmissionOrRaises : Obligations.RunStartsTheTransmissionOrRaises := by
  refine ⟨decode_run_word rfl, fun s => ⟨?starts, ?noScheme, ?empty, ?remainder, ?discarded, ?busy⟩⟩
  case starts =>
    intro hi sc hv
    refine ⟨started sc (s.len.toNat / sc.bits) s, ?_, rfl, rfl, rfl, rfl, rfl⟩
    rw [exec_run_idle hi, runIdle_valid hv]
  case noScheme =>
    intro hi hc
    rw [exec_run_idle hi, runIdle_of_no_scheme hc]
    rfl
  case empty =>
    intro hi hk hlen
    obtain ⟨k, hk⟩ := Option.isSome_iff_exists.mp hk
    have hcheck : checkLen s.len.toNat k = .error ⟨.invalidInput, .empty, 0⟩ := by simp [hlen]
    rw [exec_run_idle hi, runIdle_of_checkLen_error hk hcheck]
    rfl
  case remainder =>
    intro hi k hk hlen hmod
    have hpos : s.len.toNat ≠ 0 := fun h => hlen (BitVec.eq_of_toNat_eq h)
    rw [exec_run_idle hi, runIdle_of_checkLen_error hk (checkLen_of_remainder hpos hmod)]
    rfl
  case discarded => exact fun he => exec_in_error he (by simp)
  case busy => exact fun hb => by simp [cmdReady, hb]

/-- Settles O21: an accepted beat is the emit step on the state with the edge used up, and each branch has its equation. -/
theorem emitStepAdvancesTheTransmission : Obligations.EmitStepAdvancesTheTransmission := by
  intro s sc hacc hc
  rw [step_of_beatAccepted hacc]
  refine ⟨?nextSample, ?nextSymbol, ?last⟩
  case nextSample =>
    intro hr
    rw [emitStep_of_moreSamples (s := dropEdge s) hr]
    rfl
  case nextSymbol =>
    intro hr hs
    rw [emitStep_of_moreSymbols (s := dropEdge s) hc hr hs]
    simp only [enteredSymbol, groupReg_dropEdge]
    rfl
  case last =>
    intro hr hs
    rw [emitStep_of_nothing_follows (s := dropEdge s) hr hs]
    rfl

/-- Settles O22: the port shows the current beat; `last` is the comparison of R153 read over the integers. -/
theorem outputPortCarriesTheBeat : Obligations.OutputPortCarriesTheBeat := by
  intro s hb
  rw [outPort_of_busy hb]
  refine ⟨rfl, rfl, rfl, beatSos_iff s, ?last, rfl⟩
  exact (beatLast_iff s).trans (by omega)
end

section
/-! PROOFS. The statements about a whole transmission (42_waveform_synth.md R160, R161): the state in which each beat is on
offer, the step from it to the state of the next beat, and the run through all of them. -/

namespace Sys2Proof.Machine

/-! ### The beats up to a given one -/

/-- How many symbols the buffered bits make (R104). -/
abbrev symbolCount (sc : Scheme) (s : State) : Nat := s.len.toNat / sc.bits

/-- The first `m` beats of symbol `j` of the transmission that `RUN` starts in `s`. -/
def symbolBeats (sc : Scheme) (s : State) (j m : Nat) : List Beat :=
  (List.range m).map (signalBeat sc s s.nsps.toNat (symbolCount sc s) j)

/-- The beats before beat `r` of symbol `j`, in the order of R161. -/
def beatsBefore (sc : Scheme) (s : State) (j r : Nat) : List Beat :=
  ((List.range j).flatMap fun i => symbolBeats sc s i s.nsps.toNat) ++ symbolBeats sc s j r

@[simp] theorem beatsBefore_first (sc : Scheme) (s : State) : beatsBefore sc s 0 0 = [] := rfl

theorem beatsBefore_end {sc : Scheme} {s : State} {j : Nat} (hj : j = symbolCount sc s) :
    beatsBefore sc s j 0 = signalBeats sc s s.nsps.toNat (symbolCount sc s) := by
  rw [hj]
  exact List.append_nil _

theorem beatsBefore_next_sample (sc : Scheme) (s : State) (j r : Nat) :
    beatsBefore sc s j (r + 1) = beatsBefore sc s j r ++ [signalBeat sc s s.nsps.toNat (symbolCount sc s) j r] := by
  simp [beatsBefore, symbolBeats, List.range_succ]

/-- After the last sample of a symbol comes the first one of the next. -/
theorem beatsBefore_next_symbol {sc : Scheme} {s : State} {r : Nat} (hr : r + 1 = s.nsps.toNat) (j : Nat) :
    beatsBefore sc s (j + 1) 0 = beatsBefore sc s j r ++ [signalBeat sc s s.nsps.toNat (symbolCount sc s) j r] := by
  rw [← beatsBefore_next_sample, hr]
  simp [beatsBefore, symbolBeats, List.range_succ]

/-! ### The state in which a beat is on offer -/

/-- The state of the transmission that `RUN` starts in `s`, with beat `r` of symbol `j` on offer (R31 to R38, R154). -/
def atBeat (sc : Scheme) (s : State) (j r : Nat) : State :=
  { withSymbol sc j s with
    out := s.out ++ beatsBefore sc s j r
    nsym := BitVec.ofNat 9 (symbolCount sc s)
    si := BitVec.ofNat 9 j
    ri := BitVec.ofNat 8 r
    t := BitVec.ofNat 16 (j * s.nsps.toNat + r)
    done := false
    stat := .busy }

/-- `RUN` puts the first beat on offer. -/
theorem started_eq_atBeat (sc : Scheme) (s : State) : started sc (symbolCount sc s) s = atBeat sc s 0 0 := by
  simp [started, atBeat, withSymbol]

@[simp] theorem groupReg_atBeat (sc : Scheme) (s : State) (j r k i : Nat) : groupReg (atBeat sc s j r) k i = groupReg s k i :=
  groupReg_congr (s := s) (u := atBeat sc s j r) rfl (fun _ _ => rfl) k i

/-! ### What a transmission needs -/

/-- `RUN` passes validation in `s` and no stall or reset follows; the two bounds of R43 keep the counters from wrapping. -/
structure CanTransmit (sc : Scheme) (s : State) : Prop where
  idle : s.stat = .idle
  valid : RunValid s sc
  sink : ReadySink s
  lenLe : s.len.toNat ≤ Config.maxBits
  nspsPos : 1 ≤ s.nsps.toNat

theorem Inv.canTransmit {sc : Scheme} {s : State} (h : Inv s) (hi : s.stat = .idle) (hv : RunValid s sc) (hs : ReadySink s) :
    CanTransmit sc s := ⟨hi, hv, hs, h.lenLe, h.nspsPos⟩

theorem CanTransmit.symbolCount_pos {sc : Scheme} {s : State} (h : CanTransmit sc s) : 0 < symbolCount sc s := by
  obtain ⟨-, hpos, hmod⟩ := h.valid
  exact Nat.div_pos (Nat.le_of_dvd hpos (Nat.dvd_of_mod_eq_zero hmod)) (scheme_bits_bounds sc).1

theorem CanTransmit.symbolCount_le {sc : Scheme} {s : State} (h : CanTransmit sc s) : symbolCount sc s ≤ 256 :=
  (Nat.div_le_self _ _).trans h.lenLe

/-- A symbol index fits in the 9 bits of `SI` and `NSYM` (R31, R32). -/
theorem ofNat_index_toNat {j : Nat} (hj : j ≤ 256) : (BitVec.ofNat 9 j).toNat = j := by
  rw [BitVec.toNat_ofNat, Nat.mod_eq_of_lt (by omega)]

/-- One count on, in a register of any width. -/
theorem ofNat_add_one (w n : Nat) : BitVec.ofNat w n + 1#w = BitVec.ofNat w (n + 1) := (BitVec.ofNat_add n 1).symm

/-- The time index after the last sample of a symbol (R154). -/
theorem time_next_symbol {n r : Nat} (hr : r + 1 = n) (j : Nat) : (j + 1) * n = j * n + r + 1 := by
  rw [add_one_mul, add_assoc, hr]

/-! ### From one beat to the next -/

section
variable {sc : Scheme} {s : State} {j r : Nat}

@[simp] theorem atBeat_nsps : (atBeat sc s j r).nsps = s.nsps := rfl

/-- An offset within a symbol fits in the 8 bits of `RI` (R33). -/
theorem atBeat_ri_toNat (hr : r < s.nsps.toNat) : (atBeat sc s j r).ri.toNat = r := by
  have hn : s.nsps.toNat < 256 := s.nsps.isLt
  exact Nat.mod_eq_of_lt (by omega)

theorem CanTransmit.atBeat_si_toNat (h : CanTransmit sc s) (hj : j < symbolCount sc s) : (atBeat sc s j r).si.toNat = j :=
  ofNat_index_toNat (hj.le.trans h.symbolCount_le)

theorem CanTransmit.atBeat_nsym_toNat (h : CanTransmit sc s) : (atBeat sc s j r).nsym.toNat = symbolCount sc s :=
  ofNat_index_toNat h.symbolCount_le

theorem moreSamples_atBeat (hr : r < s.nsps.toNat) : moreSamples (atBeat sc s j r) ↔ r + 1 < s.nsps.toNat := by
  rw [moreSamples, atBeat_ri_toNat hr, atBeat_nsps]

theorem CanTransmit.moreSymbols_atBeat (h : CanTransmit sc s) (hj : j < symbolCount sc s) :
    moreSymbols (atBeat sc s j r) ↔ j + 1 < symbolCount sc s := by
  rw [moreSymbols, h.atBeat_si_toNat hj, h.atBeat_nsym_toNat]

/-- The beat on offer is that of the list of R161. -/
theorem CanTransmit.currentBeat_atBeat (h : CanTransmit sc s) (hj : j < symbolCount sc s) (hr : r < s.nsps.toNat) :
    currentBeat (atBeat sc s j r) = signalBeat sc s s.nsps.toNat (symbolCount sc s) j r := by
  have hsos : beatSos (atBeat sc s j r) = (r == 0) := by
    rw [Bool.eq_iff_iff, beatSos_iff, beq_iff_eq, ← BitVec.toNat_inj, atBeat_ri_toNat hr]
    rfl
  have hlast : beatLast (atBeat sc s j r) = (j + 1 == symbolCount sc s && r + 1 == s.nsps.toNat) := by
    rw [beatLast, h.atBeat_si_toNat hj, h.atBeat_nsym_toNat, atBeat_ri_toNat hr, atBeat_nsps]
  have hcplx : cplxFlag (atBeat sc s j r) = cplxOf sc.code := cplxOf_code h.valid.1
  rw [currentBeat, hsos, hlast, hcplx]
  rfl

theorem CanTransmit.step_atBeat (h : CanTransmit sc s) : step (atBeat sc s j r) = emitStep (atBeat sc s j r) := by
  obtain ⟨hedges, hrst, hready⟩ := h.sink
  have hnow : edgeNow (atBeat sc s j r) = s.after := by simp [edgeNow, atBeat, withSymbol, hedges]
  have hdrop : dropEdge (atBeat sc s j r) = atBeat sc s j r := by simp [dropEdge, atBeat, withSymbol, hedges]
  rw [step_of_beatAccepted ⟨rfl, by rw [hnow, hrst], by rw [hnow, hready]⟩, hdrop]

theorem CanTransmit.step_next_sample (h : CanTransmit sc s) (hj : j < symbolCount sc s) (hr : r + 1 < s.nsps.toNat) :
    step (atBeat sc s j r) = .next (atBeat sc s j (r + 1)) := by
  have hlt : r < s.nsps.toNat := by omega
  rw [h.step_atBeat, emitStep_of_moreSamples ((moreSamples_atBeat hlt).mpr hr), nextSample, h.currentBeat_atBeat hj hlt]
  simp [atBeat, withSymbol, beatsBefore_next_sample, ofNat_add_one, add_assoc]

theorem CanTransmit.step_next_symbol (h : CanTransmit sc s) (hj : j + 1 < symbolCount sc s) (hr : r + 1 = s.nsps.toNat) :
    step (atBeat sc s j r) = .next (atBeat sc s (j + 1) 0) := by
  have hlt : r < s.nsps.toNat := by omega
  have hjlt : j < symbolCount sc s := by omega
  have hc : schemeOf (atBeat sc s j r).sch = some sc := h.valid.1
  rw [h.step_atBeat, emitStep_of_moreSymbols hc (by rw [moreSamples_atBeat hlt]; omega) ((h.moreSymbols_atBeat hjlt).mpr hj),
    enteredSymbol, h.currentBeat_atBeat hjlt hlt, h.atBeat_si_toNat hjlt, groupReg_atBeat]
  simp [atBeat, withSymbol, beatsBefore_next_symbol hr, time_next_symbol hr, ofNat_add_one]

theorem CanTransmit.step_last (h : CanTransmit sc s) (hj : j + 1 = symbolCount sc s) (hr : r + 1 = s.nsps.toNat) :
    step (atBeat sc s j r) = .next (afterTransmission sc s) := by
  have hlt : r < s.nsps.toNat := by omega
  have hjlt : j < symbolCount sc s := by omega
  have hout : signalBeats sc s s.nsps.toNat (symbolCount sc s) =
      beatsBefore sc s j r ++ [signalBeat sc s s.nsps.toNat (symbolCount sc s) j r] := by
    rw [← beatsBefore_end hj, beatsBefore_next_symbol hr]
  have hcount : s.len.toNat / sc.bits = j + 1 := hj.symm
  rw [h.step_atBeat, emitStep_of_nothing_follows (by rw [moreSamples_atBeat hlt]; omega)
    (by rw [h.moreSymbols_atBeat hjlt]; omega), finishTransmission, acceptBeat, h.currentBeat_atBeat hjlt hlt,
    afterTransmission, hout]
  simp [atBeat, withSymbol, appendBeat, hcount, time_next_symbol hr, ofNat_add_one]

/-! ### From the first beat to the end -/

/-- A run and one step more. -/
theorem run_step_after {s t u : State} {m : Nat} (h : Sys2Proof.core.run m s = .next t) (hs : step t = .next u) :
    Sys2Proof.core.run (m + 1) s = .next u := by
  rw [run_add h 1, run_succ_next hs 0, run_zero]

theorem CanTransmit.run_samples (h : CanTransmit sc s) (hj : j < symbolCount sc s) (hr : r < s.nsps.toNat) :
    Sys2Proof.core.run r (atBeat sc s j 0) = .next (atBeat sc s j r) := by
  induction r with
  | zero => rfl
  | succ r ih => exact run_step_after (ih (by omega)) (h.step_next_sample hj hr)

/-- All samples of a symbol but the last one, then the last one. -/
theorem CanTransmit.run_symbol (h : CanTransmit sc s) (hj : j < symbolCount sc s) {u : State}
    (hlast : step (atBeat sc s j (s.nsps.toNat - 1)) = .next u) :
    Sys2Proof.core.run s.nsps.toNat (atBeat sc s j 0) = .next u := by
  have hpos := h.nspsPos
  have hrun := run_step_after (h.run_samples hj (by omega)) hlast
  rwa [Nat.sub_add_cancel hpos] at hrun

theorem CanTransmit.run_symbols (h : CanTransmit sc s) (hj : j < symbolCount sc s) :
    Sys2Proof.core.run (j * s.nsps.toNat) (atBeat sc s 0 0) = .next (atBeat sc s j 0) := by
  induction j with
  | zero => rw [zero_mul, run_zero]
  | succ j ih =>
    have hjlt : j < symbolCount sc s := by omega
    rw [Nat.succ_mul, run_add (ih hjlt)]
    exact h.run_symbol hjlt (h.step_next_symbol hj (Nat.sub_add_cancel h.nspsPos))

/-- The symbols before the last one, then the last one (R161). -/
theorem CanTransmit.run_started (h : CanTransmit sc s) :
    Sys2Proof.core.run (symbolCount sc s * s.nsps.toNat) (started sc (symbolCount sc s) s) = .next (afterTransmission sc s) := by
  obtain ⟨j, hj⟩ := Nat.exists_eq_add_one.mpr h.symbolCount_pos
  have hjlt : j < symbolCount sc s := by omega
  rw [started_eq_atBeat, hj, Nat.succ_mul, run_add (h.run_symbols hjlt)]
  exact h.run_symbol hjlt (h.step_last hj.symm (Nat.sub_add_cancel h.nspsPos))

theorem CanTransmit.exec_run (h : CanTransmit sc s) : exec .run s = .next (started sc (symbolCount sc s) s) := by
  rw [exec_run_idle h.idle, runIdle_valid h.valid]

end

/-! ### A second transmission -/

@[simp] theorem groupReg_afterTransmission (sc : Scheme) (s : State) (k j : Nat) :
    groupReg (afterTransmission sc s) k j = groupReg s k j :=
  groupReg_congr (s := s) (u := afterTransmission sc s) rfl (fun _ _ => rfl) k j

/-- The beats depend on the buffer below `LEN` alone, which a transmission leaves as it is (R160). -/
theorem signalBeats_afterTransmission (sc : Scheme) (s : State) (n N : Nat) :
    signalBeats sc (afterTransmission sc s) n N = signalBeats sc s n N := by
  simp only [signalBeats, signalBeat, groupReg_afterTransmission]

theorem afterTransmission_twice (sc : Scheme) (s : State) :
    afterTransmission sc (afterTransmission sc s) = { afterTransmission sc s with
      out := s.out ++ (signalBeats sc s s.nsps.toNat (symbolCount sc s) ++
        signalBeats sc s s.nsps.toNat (symbolCount sc s)) } := by
  rw [afterTransmission, signalBeats_afterTransmission]
  simp only [groupReg_afterTransmission]
  simp [afterTransmission]

theorem CanTransmit.after {sc : Scheme} {s : State} (h : CanTransmit sc s) : CanTransmit sc (afterTransmission sc s) :=
  ⟨rfl, h.valid, h.sink, h.lenLe, h.nspsPos⟩

end Sys2Proof.Machine

open Sys2Proof Sys2Proof.Machine

/-- Settles O45: the run passes through the state of every beat in turn. -/
theorem runEmitsTheWholeTransmission : Obligations.RunEmitsTheWholeTransmission := by
  intro s sc hinv hi hv hsink
  have h := hinv.canTransmit hi hv hsink
  exact ⟨_, h.exec_run, h.run_started⟩

/-- Settles O46: the state after a transmission can transmit again, and from the same buffer come the same beats. -/
theorem repeatedRunRepeatsTheSignal : Obligations.RepeatedRunRepeatsTheSignal := by
  intro s sc hinv hi hv hsink
  have h := hinv.canTransmit hi hv hsink
  refine ⟨_, afterTransmission sc s, _, _, h.exec_run, h.run_started, rfl, rfl, rfl, rfl, rfl, h.after.exec_run, ?_⟩
  rw [← afterTransmission_twice]
  exact h.after.run_started
end

section
/-! PROOFS. The statements about the Registry and the four configuration commands (43_registry_config.md R170, R171, R173 to
R176): each command's word and its effect outside `BUSY`, and the Registry read under a scheme's own code and under a code that
names no scheme. -/

namespace Sys2Proof.Machine

/-! ### The words of the operand commands -/

/-- An operand added to the first word of a command's range, where the sum is a 16-bit word (R13). -/
theorem toNat_add_zext16 {k : Nat} {base : Word} {v : BitVec k} (h : base.toNat + v.toNat < 2 ^ 16) :
    (base + zext16 v).toNat = base.toNat + v.toNat := by
  rw [zext16, BitVec.toNat_add, BitVec.toNat_setWidth, Nat.add_mod_mod, Nat.mod_eq_of_lt h]

/-- The words of `SETSCH` start at `0x2000`, and their distance from it is the scheme code (R82, R83). -/
theorem decode_setsch_offset (c : SchemeCode) : decode (0x2000 + zext16 c) = .command (.setsch c) := by
  have hword : (0x2000 + zext16 c).toNat = 0x2000 + c.toNat := toNat_add_zext16 (by simp; omega)
  simpa using decode_setsch_word hword c.isLt

/-- The words of `SETN` start at `0x3000`, and their distance from it is the count (R82, R84). -/
theorem decode_setn_offset {n : BitVec 8} (hn : n ≠ 0) : decode (0x3000 + zext16 n) = .command (.setn n) := by
  have hword : (0x3000 + zext16 n).toNat = 0x3000 + n.toNat := toNat_add_zext16 (by simp; omega)
  have hpos : 0 < n.toNat := by bv_omega
  simpa using decode_setn_word hword hpos n.isLt

/-- Outside the ranges of the legal words the decoder finds no command (R87 to R89). -/
theorem decode_instr?_of_not_isLegalNumber {w : Word} (hw : ¬ IsLegalNumber w.toNat) : (decode w).instr? = none := by
  obtain ⟨r, hr⟩ : ∃ r, decode w = .illegal w r := not_not.mp (mt isLegalNumber_of_not_illegal hw)
  rw [hr]
  rfl

/-! ### Effects -/

theorem exec_nop {s : State} (hb : s.stat ≠ .busy) : exec .nop s = .next s := by
  show Host.Outcome.next (whenReady (fun s => s) s) = _
  rw [whenReady_of_not_busy hb]

theorem exec_setsch_idle {s : State} (hi : s.stat = .idle) (c : SchemeCode) :
    exec (.setsch c) s = .next { s with sch := c } := by
  show Host.Outcome.next (whenIdle (fun s => { s with sch := c }) s) = _
  rw [whenIdle_idle hi]

theorem exec_setn_idle {s : State} (hi : s.stat = .idle) (n : BitVec 8) :
    exec (.setn n) s = .next { s with nsps := n } := by
  show Host.Outcome.next (whenIdle (fun s => { s with nsps := n }) s) = _
  rw [whenIdle_idle hi]

theorem clearToIdle_idem (s : State) : clearToIdle (clearToIdle s) = clearToIdle s := rfl

/-- A command other than `CLR` leaves the block in `ERROR` (R210, R211). -/
theorem eq_clr_of_exec_leaves_error {i : Instr} {s t : State} (he : s.stat = .error) (hexec : exec i s = .next t)
    (ht : t.stat ≠ .error) : i = .clr := by
  by_contra hi
  obtain rfl : s = t := Host.Outcome.next.inj ((exec_in_error he hi).symm.trans hexec)
  exact ht he

/-! ### The Registry -/

/-- The Registry names a scheme under its own code (R170). -/
@[simp] theorem schemeOf_code (sc : Scheme) : schemeOf sc.code = some sc := schemeOf_eq_some.mpr rfl

@[simp] theorem kOf_code (sc : Scheme) : kOf sc.code = some sc.bits := kOf_of_scheme (schemeOf_code sc)

/-- The codes of the five schemes are 0 to 4, so no code from 5 on names one (R170). -/
theorem schemeOf_of_five_le {c : SchemeCode} (hc : 5 ≤ c.toNat) : schemeOf c = none := by
  cases h : schemeOf c with
  | none => rfl
  | some sc =>
    have hlt : sc.code.toNat < 5 := by cases sc <;> decide
    rw [schemeOf_eq_some.mp h] at hc
    omega

theorem kOf_of_five_le {c : SchemeCode} (hc : 5 ≤ c.toNat) : kOf c = none := kOf_eq_none.mpr (schemeOf_of_five_le hc)

/-- A code that names no scheme is not complex (R171). -/
theorem cplxOf_of_five_le {c : SchemeCode} (hc : 5 ≤ c.toNat) : cplxOf c = false := by
  rw [cplxOf, schemeOf_of_five_le hc]

/-- Of the five schemes OOK alone is real-valued (R171). -/
theorem cplxOf_eq_ne_ook (sc : Scheme) : cplxOf sc.code = (sc != .ook) := by
  cases sc <;> rfl

end Sys2Proof.Machine

open Sys2Proof Sys2Proof.Machine

/-- Settles O14: `NOP` executes wherever a command can be issued, and its effect is the identity. -/
theorem nopChangesNothing : Obligations.NopChangesNothing :=
  ⟨decode_nop_word rfl, fun _ hb => exec_nop hb⟩

/-- Settles O15: outside `BUSY` `CLR` leaves `clearToIdle s`, which is in `IDLE`, so that a second `CLR` executes and finds
nothing to write. -/
theorem clrEmptiesBufferAndLeavesError : Obligations.ClrEmptiesBufferAndLeavesError := by
  refine ⟨decode_clr_word rfl, fun s hb => by simp [cmdReady, hb], fun _ _ _ => eq_clr_of_exec_leaves_error, ?_⟩
  intro s hb
  have hagain : exec .clr (clearToIdle s) = .next (clearToIdle s) := by
    rw [exec_clr (by simp), clearToIdle_idem]
  exact ⟨clearToIdle s, exec_clr hb, rfl, fun _ => rfl, rfl, rfl, hagain⟩

/-- Settles O16: in `ERROR` by what holds there of every command but `CLR`; no legal word lies between `0x2007` and `0x3001`. -/
theorem setschSelectsTheScheme : Obligations.SetschSelectsTheScheme := by
  constructor
  · intro c s
    exact ⟨decode_setsch_offset c, fun hi => ⟨exec_setsch_idle hi c, rfl⟩, fun he => exec_in_error he (by simp)⟩
  · intro w hlo hhi
    apply decode_instr?_of_not_isLegalNumber
    unfold IsLegalNumber
    omega

/-- Settles O17: in `ERROR` by what holds there of every command but `CLR`; the legal words of `SETN` begin at `0x3001`. -/
theorem setnSetsSamplesPerSymbol : Obligations.SetnSetsSamplesPerSymbol := by
  constructor
  · intro n s hn
    exact ⟨decode_setn_offset hn, fun hi => exec_setn_idle hi n, fun he => exec_in_error he (by simp)⟩
  · exact decode_instr?_of_not_isLegalNumber (by simp [IsLegalNumber])

/-- Settles O29: codes 0 to 4 are the schemes' own, and no code from 5 on names a scheme. -/
theorem registryHoldsFiveSchemes : Obligations.RegistryHoldsFiveSchemes := by
  refine ⟨?scheme, ?bits, ?cplx, rfl, rfl, rfl, rfl, rfl⟩
  case scheme =>
    exact ⟨schemeOf_code .ook, schemeOf_code .psk2, schemeOf_code .psk4, schemeOf_code .qam8, schemeOf_code .qam16,
      schemeOf_of_five_le (by decide), schemeOf_of_five_le (by decide), schemeOf_of_five_le (by decide)⟩
  case bits =>
    exact ⟨kOf_code .ook, kOf_code .psk2, kOf_code .psk4, kOf_code .qam8, kOf_code .qam16,
      kOf_of_five_le (by decide), kOf_of_five_le (by decide), kOf_of_five_le (by decide)⟩
  case cplx =>
    exact ⟨cplxOf_eq_ne_ook .ook, cplxOf_eq_ne_ook .psk2, cplxOf_eq_ne_ook .psk4, cplxOf_eq_ne_ook .qam8,
      cplxOf_eq_ne_ook .qam16, cplxOf_of_five_le (by decide), cplxOf_of_five_le (by decide), cplxOf_of_five_le (by decide)⟩
end

section
/-! PROOFS. The statements about the error state and the transitions of `STATE` (60_exceptions.md R205, R210, R223): what an
offered word does in `ERROR`, and what `STATE` becomes after an issued word and after a beat. -/

namespace Sys2Proof.Machine

/-! ### Offered words in `ERROR` -/

/-- An illegal word is no command. -/
theorem decode_ne_command_of_illegal {w : Word} (hw : (decode w).instr? = none) (i : Instr) : decode w ≠ .command i := by
  intro h
  simp [h, Decoded.instr?] at hw

/-- `CLR` offered outside `BUSY` executes (R176, R211). -/
theorem step_offered_clr {s : State} {w : Word} {ws : List Word} (ho : Offers s w ws) (hb : s.stat ≠ .busy)
    (hw : decode w = .command .clr) : step s = .next (clearToIdle (issued s ws)) := by
  rw [step_of_offers ho hb, issueWord_command hw, exec_clr (by simpa using hb)]

/-- Every other word offered in `ERROR` is consumed without effect (R210). -/
theorem step_discards_in_error {s : State} {w : Word} {ws : List Word} (ho : Offers s w ws) (he : s.stat = .error)
    (hw : decode w ≠ .command .clr) : step s = .next (issued s ws) := by
  rw [step_of_offers ho (by simp [he]), issueWord_in_error (by simpa using he) hw]

/-! ### `STATE` after an issued word -/

/-- A word whose command raises in `IDLE`, or that is no command (the events of R223 that lead to `ERROR`). -/
abbrev RaisingWord (s : State) (w : Word) : Prop :=
  (decode w).instr? = none ∨
  (∃ c, decode w = .command (.push c) ∧ (digit c = none ∨ s.len.toNat = Config.maxBits)) ∨
  (decode w = .command .run ∧ ¬ ∃ sc, RunValid s sc)

/-- A `RUN` that raises is one that does not pass validation (R151). -/
theorem not_runValid_of_runChecked_error {s : State} {r : Trap} (hr : runChecked s = .error r) : ¬ ∃ sc, RunValid s sc := by
  rintro ⟨sc, hv⟩
  have htrap : runIdle s = trap r s := by rw [runIdle, hr]
  have hstat := congrArg State.stat (htrap.symm.trans (runIdle_valid hv))
  simp [started] at hstat

/-- Of all words issued in `IDLE`, exactly a `RUN` that passes validation leads to `BUSY` (R223). -/
theorem IssueEffect.busy_iff {w : Word} {s t : State} (h : IssueEffect w s t) (hidle : s.stat = .idle) :
    t.stat = .busy ↔ decode w = .command .run ∧ ∃ sc, RunValid s sc := by
  cases h with
  | cleared hw => simp [hw]
  | discarded he hw => simp [hidle] at he
  | nop hi hw => simp [hi, hw]
  | setsch hi c hw => simp [hi, hw]
  | setn hi n hw => simp [hi, hw]
  | badChar hi c hw hc => simp [hw]
  | overflow hi c d hw hc hfull => simp [hw]
  | appended hi c d hw hc hroom => simp [hi, hw]
  | runRaised hi r hw hr => exact iff_of_false (by simp) fun h => not_runValid_of_runChecked_error hr h.2
  | runStarted hi sc hw hv => exact iff_of_true rfl ⟨hw, sc, hv⟩
  | illegal hi hw => exact iff_of_false (by simp) fun h => decode_ne_command_of_illegal hw _ h.1

/-- Of all words issued in `IDLE`, exactly the raising ones lead to `ERROR` (R223). -/
theorem IssueEffect.error_iff {w : Word} {s t : State} (h : IssueEffect w s t) (hidle : s.stat = .idle)
    (hlen : s.len.toNat ≤ Config.maxBits) : t.stat = .error ↔ RaisingWord s w := by
  cases h with
  | cleared hw => simp [RaisingWord, Decoded.instr?, hw]
  | discarded he hw => simp [hidle] at he
  | nop hi hw => simp [RaisingWord, Decoded.instr?, hi, hw]
  | setsch hi c hw => simp [RaisingWord, Decoded.instr?, hi, hw]
  | setn hi n hw => simp [RaisingWord, Decoded.instr?, hi, hw]
  | badChar hi c hw hc => exact iff_of_true rfl (.inr (.inl ⟨c, hw, .inl hc⟩))
  | overflow hi c d hw hc hfull => exact iff_of_true rfl (.inr (.inl ⟨c, hw, .inr (hlen.antisymm hfull)⟩))
  | appended hi c d hw hc hroom => simp [RaisingWord, Decoded.instr?, hi, hw, hc, hroom.ne]
  | runRaised hi r hw hr => exact iff_of_true rfl (.inr (.inr ⟨hw, not_runValid_of_runChecked_error hr⟩))
  | runStarted hi sc hw hv =>
    have hvalid : ∃ sc, RunValid s sc := ⟨sc, hv⟩
    simp [RaisingWord, Decoded.instr?, hw, hvalid, started]
  | illegal hi hw => exact iff_of_true rfl (.inl hw)

/-! ### `STATE` after a step -/

/-- Outside `BUSY` and without a reset, the offered word is issued, or no word is offered and the edge is used up. -/
theorem step_outside_busy {s t : State} (hb : s.stat ≠ .busy) (hr : (edgeNow s).rst = false) (hstep : step s = .next t) :
    (∃ w ws, Offers s w ws ∧ IssueEffect w (issued s ws) t) ∨ ((∀ w ws, ¬ Offers s w ws) ∧ t = dropEdge s) := by
  rcases step_cases s with ⟨h, -⟩ | ⟨-, -, w, ws, ho, he⟩ | ⟨-, -, hn, he⟩ | ⟨hacc, -⟩ | ⟨-, h, -⟩
  · simp [hr] at h
  · obtain ⟨u, hu, heff⟩ := issueWord_effect (s := issued s ws) hb w
    obtain rfl : u = t := Host.Outcome.next.inj (hu.symm.trans (he.symm.trans hstep))
    exact .inl ⟨w, ws, ho, heff⟩
  · exact .inr ⟨not_offers_of_silent hn, Host.Outcome.next.inj (hstep.symm.trans he)⟩
  · exact absurd hacc.1 hb
  · exact absurd h hb

/-- The emit step leaves `BUSY` exactly at the last beat, and for `IDLE` only (R152, R223). -/
theorem emitStep_stat {s t : State} (hb : s.stat = .busy) (hsi : s.si.toNat < s.nsym.toNat) (hri : s.ri.toNat < s.nsps.toNat)
    (h : emitStep s = .next t) : t.stat ≠ .error ∧ (t.stat = .idle ↔ beatLast s = true) := by
  rw [beatLast_iff_nothing_follows hsi hri]
  rcases emitStep_cases s with ⟨hm, he⟩ | ⟨-, -, -, he⟩ | ⟨-, hm, sc, -, he⟩ | ⟨hm, hm', he⟩ <;> rw [he] at h <;> cases h
  · simp [nextSample, hb, hm]
  · simp [enteredSymbol, hb, hm]
  · simp [hm, hm']

/-- The transitions out of `IDLE` (R223). -/
theorem step_stat_of_idle {s t : State} (hlen : s.len.toNat ≤ Config.maxBits) (hi : s.stat = .idle)
    (hr : (edgeNow s).rst = false) (hstep : step s = .next t) :
    (t.stat = .busy ↔ ∃ w ws, Offers s w ws ∧ decode w = .command .run ∧ ∃ sc, RunValid s sc) ∧
    (t.stat = .error ↔ ∃ w ws, Offers s w ws ∧ RaisingWord s w) := by
  rcases step_outside_busy (by simp [hi]) hr hstep with ⟨w, ws, ho, heff⟩ | ⟨hn, rfl⟩
  · rw [exists_offers_iff ho fun w => decode w = .command .run ∧ ∃ sc, RunValid s sc, exists_offers_iff ho (RaisingWord s)]
    exact ⟨heff.busy_iff hi, heff.error_iff hi hlen⟩
  · simp [hi, hn]

/-- The transitions out of `BUSY` (R223). -/
theorem step_stat_of_busy {s t : State} (hinv : Inv s) (hb : s.stat = .busy) (hr : (edgeNow s).rst = false)
    (hstep : step s = .next t) :
    t.stat ≠ .error ∧ (t.stat = .idle ↔ (edgeNow s).outReady = true ∧ beatLast s = true) := by
  cases ho : (edgeNow s).outReady with
  | true =>
    obtain ⟨sc, htr⟩ := hinv.busy hb
    have hemit : emitStep (dropEdge s) = .next t := (step_of_beatAccepted ⟨hb, hr, ho⟩).symm.trans hstep
    rw [and_iff_right rfl]
    exact emitStep_stat (s := dropEdge s) hb htr.siLt hinv.riLt hemit
  | false =>
    obtain rfl : dropEdge s = t := Host.Outcome.next.inj ((step_of_stall hb hr ho).symm.trans hstep)
    simp [hb]

/-- The transitions out of `ERROR` (R210, R211, R223). -/
theorem step_stat_of_error {s t : State} (he : s.stat = .error) (hr : (edgeNow s).rst = false) (hstep : step s = .next t) :
    t.stat ≠ .busy ∧ (t.stat = .idle ↔ ∃ w ws, Offers s w ws ∧ decode w = .command .clr) := by
  have hb : s.stat ≠ .busy := by simp [he]
  rcases step_outside_busy hb hr hstep with ⟨w, ws, ho, -⟩ | ⟨hn, rfl⟩
  · rw [exists_offers_iff ho (decode · = .command .clr)]
    by_cases hw : decode w = .command .clr
    · obtain rfl : clearToIdle (issued s ws) = t := Host.Outcome.next.inj ((step_offered_clr ho hb hw).symm.trans hstep)
      simp [hw]
    · obtain rfl : issued s ws = t := Host.Outcome.next.inj ((step_discards_in_error ho he hw).symm.trans hstep)
      simp [he, hw]
  · simp [he, hn]

end Sys2Proof.Machine

open Sys2Proof Sys2Proof.Machine

/-- Settles O9: in `IDLE` the illegal word is the trap of R205, in `ERROR` it is discarded as every word but `CLR` is. -/
theorem illegalWordRaisesOrIsDiscarded : Obligations.IllegalWordRaisesOrIsDiscarded := by
  intro s w ws ho hw
  constructor
  · intro hi
    rw [step_of_offers ho (by simp [hi]), issueWord_illegal hw, illegalWord, whenIdle_idle (by simpa using hi)]
    rfl
  · exact fun he => step_discards_in_error ho he (decode_ne_command_of_illegal hw .clr)

/-- Settles O10. -/
theorem errorStateDiscardsAllButClr : Obligations.ErrorStateDiscardsAllButClr := by
  intro s w ws he
  have hb : s.stat ≠ .busy := by simp [he]
  exact ⟨(cmdReady_eq_true_iff s).mpr hb, fun ho => ⟨step_offered_clr ho hb, step_discards_in_error ho he⟩⟩

/-- Settles O40: a reset edge leaves `IDLE`; without reset, by the three states a step can start from. -/
theorem stateChangesOnlyAsListed : Obligations.StateChangesOnlyAsListed := by
  intro s t hinv hstep
  constructor
  · intro hr
    obtain rfl : resetBlock (dropEdge s) = t := by simpa [step, clockEdge, hr] using hstep
    rfl
  · intro hr
    refine ⟨fun hi => ?idle, fun hb => step_stat_of_busy hinv hb hr hstep, fun he => step_stat_of_error he hr hstep⟩
    simpa only [exists_and_left] using step_stat_of_idle hinv.lenLe hi hr hstep
end

section
/-! PROOFS. The statement about a reset edge (70_reset_and_hazards.md R230), with the step equation it needs. -/

namespace Sys2Proof.Machine

/-- A reset edge resets the block, whatever `STATE`, `cmd_valid` and `out_ready` are (R230). -/
theorem step_of_rst {s : State} (hr : (edgeNow s).rst = true) : step s = .next (resetBlock (dropEdge s)) := by
  rw [step, clockEdge, if_pos hr]

end Sys2Proof.Machine

open Sys2Proof Sys2Proof.Machine

/-- Settles O2: the state after a reset edge is `resetBlock (dropEdge s)`, which has the values of R50 for every `s`; neither
`resetBlock` nor `dropEdge` touches the host's words. -/
theorem resetEdgeOverridesEverything : Obligations.ResetEdgeOverridesEverything := by
  intro s hr
  have hcmds : (resetBlock (dropEdge s)).cmds = s.cmds := by rw [resetBlock_cmds, dropEdge_cmds]
  exact ⟨resetBlock (dropEdge s), step_of_rst hr, resetValues_resetBlock (dropEdge s), hcmds⟩
end

section
/-! PROOFS. The statements about every step (10_state.md R43, 42_waveform_synth.md R152), the command and output ports
(10_state.md section 9), the timing of the inputs and the cells above `LEN` (00_scope.md R11, 20_memory.md R75), the encoding and
the assembler's lines (30_encoding.md), the Bit Grouper, the tables of the mapper, and the list of beats of a transmission. -/

namespace Sys2Proof.Machine

/-! ### Inversion of a step that goes on -/

/-- What an emit step that goes on can leave (R152). -/
theorem emitStep_next_cases {s t : State} (h : emitStep s = .next t) :
    (moreSamples s ∧ t = nextSample s) ∨
    (¬ moreSamples s ∧ moreSymbols s ∧ ∃ sc, schemeOf s.sch = some sc ∧ t = enteredSymbol sc s) ∨
    (¬ moreSamples s ∧ ¬ moreSymbols s ∧ t = finishTransmission s) := by
  rcases emitStep_cases s with ⟨hr, he⟩ | ⟨-, -, -, he⟩ | ⟨hr, hs, sc, hc, he⟩ | ⟨hr, hs, he⟩ <;> rw [he] at h
  · exact .inl ⟨hr, (Host.Outcome.next.inj h).symm⟩
  · cases h
  · exact .inr (.inl ⟨hr, hs, sc, hc, (Host.Outcome.next.inj h).symm⟩)
  · exact .inr (.inr ⟨hr, hs, (Host.Outcome.next.inj h).symm⟩)

/-- An edge at which no word is issued and no beat accepted: none is offered, or the sink is not ready (R48, R221). -/
abbrev EdgePasses (s : State) : Prop :=
  (s.stat ≠ .busy ∧ ((edgeNow s).cmdValid = false ∨ s.cmds = [])) ∨ (s.stat = .busy ∧ (edgeNow s).outReady = false)

theorem EdgePasses.not_beatAccepted {s : State} (h : EdgePasses s) : ¬ BeatAccepted s := by
  rintro ⟨hb, -, ho⟩
  rcases h with ⟨hn, -⟩ | ⟨-, hs⟩
  · exact hn hb
  · simp [ho] at hs

/-- What a step that goes on can leave: a reset edge, an issued word, an edge that only passes, an accepted beat. -/
theorem step_next_cases {s t : State} (h : step s = .next t) :
    ((edgeNow s).rst = true ∧ t = resetBlock (dropEdge s)) ∨
    ((edgeNow s).rst = false ∧ s.stat ≠ .busy ∧ ∃ w ws, Offers s w ws ∧ IssueEffect w (issued s ws) t) ∨
    ((edgeNow s).rst = false ∧ EdgePasses s ∧ t = dropEdge s) ∨
    (BeatAccepted s ∧ emitStep (dropEdge s) = .next t) := by
  rcases step_cases s with ⟨hr, he⟩ | ⟨hr, hb, w, ws, ho, he⟩ | ⟨hr, hb, hn, he⟩ | ⟨hacc, he⟩ | ⟨hr, hb, hs, he⟩ <;>
    rw [he] at h
  · exact .inl ⟨hr, (Host.Outcome.next.inj h).symm⟩
  · obtain ⟨u, hu, heff⟩ := issueWord_effect (s := issued s ws) hb w
    obtain rfl : u = t := Host.Outcome.next.inj (hu.symm.trans h)
    exact .inr (.inl ⟨hr, hb, w, ws, ho, heff⟩)
  · exact .inr (.inr (.inl ⟨hr, .inl ⟨hb, hn⟩, (Host.Outcome.next.inj h).symm⟩))
  · exact .inr (.inr (.inr ⟨hacc, h⟩))
  · exact .inr (.inr (.inl ⟨hr, .inr ⟨hb, hs⟩, (Host.Outcome.next.inj h).symm⟩))

/-! ### The output history -/

/-- A beat that carries the time index the history expects prolongs it, and closes the transmission if it is the last one. -/
theorem historyPhase_append {bs : List Beat} {n m : Nat} {b : Beat} (h : historyPhase n bs = some m) (ht : b.t.toNat = m) :
    historyPhase n (bs ++ [b]) = some (if b.last then 0 else m + 1) := by
  induction bs generalizing n with
  | nil =>
    obtain rfl : n = m := Option.some.inj h
    simp [historyPhase, ht]
  | cons c cs ih =>
    rw [historyPhase] at h
    split at h
    · next hc => rw [List.cons_append, historyPhase, if_pos hc, ih h]
    · cases h

theorem openBeats_of_not_busy {s : State} (h : s.stat ≠ .busy) : openBeats s = 0 := if_neg h

theorem openBeats_of_busy {s : State} (h : s.stat = .busy) : openBeats s = s.t.toNat := if_pos h

/-! ### Single facts out of the invariants -/

theorem Inv.cause_of_not_error {s : State} (h : Inv s) (hs : s.stat ≠ .error) : s.cause = .noError := by
  by_contra hc
  exact hs (h.errorIff.mpr hc)

/-- With no error recorded `SUB` and `EINFO` are 0 (R29, R30). -/
theorem errorRecord_of_noError {s : State} (hc : s.cause = .noError) : ErrorRecord s ↔ s.sub = .noSub ∧ s.einfo = 0 := by
  rw [ErrorRecord, hc]

/-- Outside `ERROR` the record does not depend on `SCH` and `LEN`. -/
theorem Inv.record_of_not_error {s t : State} (h : Inv s) (hs : s.stat ≠ .error) (hcause : t.cause = s.cause)
    (hsub : t.sub = s.sub) (hinfo : t.einfo = s.einfo) : ErrorRecord t := by
  have hc := h.cause_of_not_error hs
  rw [errorRecord_of_noError (hcause.trans hc), hsub, hinfo]
  exact (errorRecord_of_noError hc).mp h.record

/-- Outside `BUSY` every transmission in the history is complete (R226). -/
theorem Inv.history_closed {s : State} (h : Inv s) (hb : s.stat ≠ .busy) : historyPhase 0 s.out = some 0 := by
  rw [h.history, openBeats_of_not_busy hb]

/-! ### The invariants after reset -/

theorem inv_resetBlock (s : State) : Inv (resetBlock s) where
  memory := memory_reset_wf
  written := by simp
  lenLe := by simp
  nspsPos := by simp
  errorIff := by simp
  record := (errorRecord_of_noError rfl).mpr ⟨rfl, rfl⟩
  nsymLe := by simp
  siLe := by simp
  glenLe := by simp
  riLt := by simp
  riIdle := fun _ => rfl
  busy := by simp
  done := by simp
  history := rfl

/-! ### The invariants and the input fields -/

/-- The invariants say nothing of what the environment will do. -/
theorem Inv.with_inputs {s : State} (h : Inv s) (ws : List Word) (es : List EdgeInput) :
    Inv { s with cmds := ws, edges := es } :=
  { h with
    busy := fun hb => by
      obtain ⟨sc, htr⟩ := h.busy hb
      refine ⟨sc, { htr with group := htr.group.trans ?_ }⟩
      exact (groupReg_congr (s := s) (u := { s with cmds := ws, edges := es }) rfl (fun _ _ => rfl) _ _).symm }

theorem Inv.after_edge {s : State} (h : Inv s) : Inv (dropEdge s) := h.with_inputs s.cmds s.edges.tail

theorem Inv.after_issue {s : State} (h : Inv s) (ws : List Word) : Inv (issued s ws) := h.with_inputs ws s.edges.tail

/-! ### Issued words keep the invariants -/

theorem Inv.after_clr {s : State} (h : Inv s) (hb : s.stat ≠ .busy) : Inv (clearToIdle s) :=
  { h with
    written := by simp
    lenLe := by simp
    errorIff := by simp
    record := (errorRecord_of_noError rfl).mpr ⟨rfl, rfl⟩
    riIdle := fun _ => h.riIdle hb
    busy := by simp
    done := by simp
    history := h.history_closed hb }

theorem Inv.after_setsch {s : State} (h : Inv s) (hi : s.stat = .idle) (c : SchemeCode) : Inv { s with sch := c } :=
  { h with
    record := h.record_of_not_error (by simp [hi]) rfl rfl rfl
    busy := fun hb => by simp [hi] at hb }

/-- `RI` is 0 in `IDLE`, so that it is below every count that `SETN` can set. -/
theorem Inv.after_setn {s : State} (h : Inv s) (hi : s.stat = .idle) {n : BitVec 8} (hn : n ≠ 0) : Inv { s with nsps := n } := by
  have hpos : 0 < n.toNat := by bv_omega
  have hri : s.ri = 0 := h.riIdle (by simp [hi])
  exact { h with
    nspsPos := hpos
    riLt := by simpa [hri] using hpos
    busy := fun hb => by simp [hi] at hb }

theorem Inv.after_append {s : State} (h : Inv s) (hi : s.stat = .idle) (hroom : s.len.toNat < Config.maxBits) (d : Bit) :
    Inv (appendBit d s) := by
  have hlen : (appendBit d s).len.toNat = s.len.toNat + 1 := len_succ_toNat hroom
  exact { h with
    memory := memory_write_wf h.memory hroom d
    written := fun a ha => by
      rw [appendBit_buf]
      by_cases heq : a = pushAddr s
      · simp [heq]
      · rw [memory_read_write_other _ _ heq]
        exact h.written a (by rw [pushAddr] at heq; omega)
    lenLe := by rw [hlen]; exact hroom
    record := h.record_of_not_error (by simp [hi]) rfl rfl rfl
    busy := fun hb => by simp [hi] at hb }

/-- A trap keeps the invariants when the record it leaves is one of R225. -/
theorem Inv.after_trap {s : State} (h : Inv s) (hi : s.stat = .idle) {r : Trap} (hr : r.cause ≠ .noError)
    (hrec : ErrorRecord (trap r s)) : Inv (trap r s) :=
  { h with
    errorIff := by simp [hr]
    record := hrec
    riIdle := fun _ => h.riIdle (by simp [hi])
    busy := by simp
    done := by simp
    history := h.history_closed (by simp [hi]) }

/-- What `RUN` raises is one of the errors of R151, with its record (R225). -/
theorem errorRecord_of_runChecked_error {s : State} {r : Trap} (hr : runChecked s = .error r) :
    r.cause ≠ .noError ∧ ErrorRecord (trap r s) := by
  rcases runChecked_cases s with ⟨hc, he⟩ | ⟨sc, hc, h0, he⟩ | ⟨sc, hc, -, hmod, he⟩ | ⟨sc, -, he⟩ <;> rw [he] at hr <;>
    cases hr
  · exact ⟨by simp, rfl, kOf_eq_none.mpr hc, rfl⟩
  · exact ⟨by simp, .inl ⟨rfl, rfl, BitVec.eq_of_toNat_eq h0, by simp [hc]⟩⟩
  · exact ⟨by simp, .inr (.inr ⟨rfl, sc.bits, kOf_of_scheme hc, hmod, rfl⟩)⟩

@[simp] theorem groupReg_started (sc : Scheme) (N : Nat) (s : State) (k j : Nat) :
    groupReg (started sc N s) k j = groupReg s k j :=
  groupReg_congr (s := s) (u := started sc N s) rfl (fun _ _ => rfl) k j

/-- `GLEN` of a loaded symbol (R36). -/
theorem lengthTag_le (sc : Scheme) : (lengthTag sc.bits).toNat ≤ 4 := by
  rw [lengthTag_bits]
  exact (scheme_bits_bounds sc).2

/-- A `RUN` that passes validation starts at symbol 0, offset 0, with at least one symbol to send (R151). -/
theorem transmitting_started {s : State} {sc : Scheme} (hv : RunValid s sc) (hlen : s.len.toNat ≤ Config.maxBits) :
    Transmitting (started sc (s.len.toNat / sc.bits) s) sc := by
  obtain ⟨hc, hpos, hmod⟩ := hv
  have hN : s.len.toNat / sc.bits * sc.bits = s.len.toNat := Nat.div_mul_cancel (Nat.dvd_of_mod_eq_zero hmod)
  have hnsym : (started sc (s.len.toNat / sc.bits) s).nsym.toNat = s.len.toNat / sc.bits :=
    ofNat_index_toNat ((Nat.div_le_self _ _).trans hlen)
  exact {
    scheme := hc
    lenPos := hpos
    lenEq := by rw [hnsym]; exact hN.symm
    siLt := by
      rw [hnsym]
      exact Nat.pos_of_mul_pos_right (hN.symm ▸ hpos)
    time := by simp [started]
    tag := rfl
    group := (groupReg_started ..).symm
    symbol := mapSymbol_tag hc _
    notDone := rfl }

theorem Inv.after_run {s : State} {sc : Scheme} (h : Inv s) (hi : s.stat = .idle) (hv : RunValid s sc) :
    Inv (started sc (s.len.toNat / sc.bits) s) := by
  have hnsym : (started sc (s.len.toNat / sc.bits) s).nsym.toNat ≤ Config.maxBits := by
    have hle := (Nat.div_le_self s.len.toNat sc.bits).trans h.lenLe
    exact (ofNat_index_toNat hle).trans_le hle
  exact { h with
    errorIff := iff_of_false nofun fun hc => hc (h.cause_of_not_error (by simp [hi]))
    record := h.record_of_not_error (by simp [hi]) rfl rfl rfl
    nsymLe := hnsym
    siLe := Nat.zero_le _
    glenLe := lengthTag_le sc
    riLt := h.nspsPos
    riIdle := fun hb => absurd rfl hb
    busy := fun _ => ⟨sc, transmitting_started hv h.lenLe⟩
    done := nofun
    history := h.history_closed (by simp [hi]) }

/-- Every issued word keeps the invariants. -/
theorem IssueEffect.inv {w : Word} {s t : State} (h : IssueEffect w s t) (hinv : Inv s) (hb : s.stat ≠ .busy) : Inv t := by
  cases h with
  | cleared hw => exact hinv.after_clr hb
  | discarded he hw => exact hinv
  | nop hi hw => exact hinv
  | setsch hi c hw => exact hinv.after_setsch hi c
  | setn hi n hw => exact hinv.after_setn hi (by simpa [Instr.wellFormed] using decode_wellFormed hw)
  | badChar hi c hw hc => exact hinv.after_trap hi (by simp) (.inr (.inl ⟨rfl, c, hc, rfl⟩))
  | overflow hi c d hw hc hfull =>
    have hinfo := (digit_eq_some hc).imp (congrArg zext16) (congrArg zext16)
    exact hinv.after_trap hi (by simp) ⟨rfl, hinv.lenLe.antisymm hfull, hinfo⟩
  | appended hi c d hw hc hroom => exact hinv.after_append hi hroom d
  | runRaised hi r hw hr =>
    obtain ⟨hcause, hrec⟩ := errorRecord_of_runChecked_error hr
    exact hinv.after_trap hi hcause hrec
  | runStarted hi sc hw hv => exact hinv.after_run hi hv
  | illegal hi hw => exact hinv.after_trap hi (by simp) ⟨rfl, hw⟩

/-! ### Accepted beats keep the invariants -/

/-- The time index of a beat lies below the length of its transmission (R154), and that length fits in the 16 bits of `T` (R8). -/
theorem Inv.time_bounds {s : State} (h : Inv s) {sc : Scheme} (htr : Transmitting s sc) :
    s.t.toNat < s.nsym.toNat * s.nsps.toNat ∧ s.nsym.toNat * s.nsps.toNat < 2 ^ 16 := by
  have hsi : s.si.toNat + 1 ≤ s.nsym.toNat := htr.siLt
  have hnsym : s.nsym.toNat ≤ 256 := h.nsymLe
  have hnsps : s.nsps.toNat ≤ 255 := by omega
  constructor
  · calc s.t.toNat = s.si.toNat * s.nsps.toNat + s.ri.toNat := htr.time
      _ < s.si.toNat * s.nsps.toNat + s.nsps.toNat := Nat.add_lt_add_left h.riLt _
      _ = (s.si.toNat + 1) * s.nsps.toNat := (Nat.succ_mul _ _).symm
      _ ≤ s.nsym.toNat * s.nsps.toNat := Nat.mul_le_mul_right _ hsi
  · calc s.nsym.toNat * s.nsps.toNat ≤ 256 * 255 := Nat.mul_le_mul hnsym hnsps
      _ < 2 ^ 16 := by decide

/-- `T` counts on without wrapping (R34). -/
theorem Inv.time_succ {s : State} (h : Inv s) {sc : Scheme} (htr : Transmitting s sc) :
    (s.t + 1).toNat = s.t.toNat + 1 := by
  obtain ⟨hlt, hle⟩ := h.time_bounds htr
  have hfit : s.t.toNat + 1 < 2 ^ 16 := by omega
  bv_omega

/-- `SI` counts on without wrapping (R32). -/
theorem Inv.si_succ {s : State} (h : Inv s) {sc : Scheme} (htr : Transmitting s sc) :
    (s.si + 1).toNat = s.si.toNat + 1 := by
  have hsi := htr.siLt
  have hnsym : s.nsym.toNat ≤ 256 := h.nsymLe
  bv_omega

/-- `RI` counts on without wrapping (R33). -/
theorem ri_succ {s : State} (h : moreSamples s) : (s.ri + 1).toNat = s.ri.toNat + 1 := by
  have hlt : s.ri.toNat + 1 < s.nsps.toNat := h
  bv_omega

/-- The last sample of a symbol is at offset `NSPS - 1`. -/
theorem Inv.ri_of_last_sample {s : State} (h : Inv s) (hr : ¬ moreSamples s) : s.ri.toNat + 1 = s.nsps.toNat := by
  have hlt := h.riLt
  rw [moreSamples] at hr
  omega

/-- The time index after the last sample of a symbol is that of the next symbol's first one (R154). -/
theorem Inv.time_of_last_sample {s : State} (h : Inv s) {sc : Scheme} (htr : Transmitting s sc) (hr : ¬ moreSamples s) :
    (s.t + 1).toNat = (s.si.toNat + 1) * s.nsps.toNat := by
  rw [h.time_succ htr, htr.time, time_next_symbol (h.ri_of_last_sample hr)]

/-- An accepted beat prolongs the history by one, or completes its transmission (R226). -/
theorem Inv.history_accept {s : State} (h : Inv s) (hb : s.stat = .busy) :
    historyPhase 0 (s.out ++ [currentBeat s]) = some (if beatLast s then 0 else s.t.toNat + 1) :=
  historyPhase_append (by rw [h.history, openBeats_of_busy hb]) rfl

theorem Inv.history_more {s : State} (h : Inv s) (hb : s.stat = .busy) {sc : Scheme} (htr : Transmitting s sc)
    (hmore : moreSamples s ∨ moreSymbols s) :
    historyPhase 0 (s.out ++ [currentBeat s]) = some (s.t + 1).toNat := by
  have hlast : ¬ beatLast s = true := by
    rw [beatLast_iff_nothing_follows htr.siLt h.riLt]
    tauto
  rw [h.history_accept hb, if_neg hlast, h.time_succ htr]

theorem Inv.after_next_sample {s : State} (h : Inv s) (hb : s.stat = .busy) (hr : moreSamples s) : Inv (nextSample s) := by
  obtain ⟨sc, htr⟩ := h.busy hb
  have hri : (nextSample s).ri.toNat = s.ri.toNat + 1 := ri_succ hr
  have htime : (nextSample s).t.toNat = s.t.toNat + 1 := h.time_succ htr
  have hgroup : groupReg (nextSample s) sc.bits s.si.toNat = groupReg s sc.bits s.si.toNat :=
    groupReg_congr (s := s) (u := nextSample s) rfl (fun _ _ => rfl) _ _
  exact { h with
    riLt := by rw [hri]; exact hr
    riIdle := fun hn => absurd hb hn
    busy := fun _ => ⟨sc, { htr with
      time := by rw [htime, hri, htr.time]; rfl
      group := htr.group.trans hgroup.symm }⟩
    done := fun hd => absurd (htr.notDone.symm.trans hd) nofun
    history := (h.history_more hb htr (.inl hr)).trans (congrArg some (openBeats_of_busy (s := nextSample s) hb).symm) }

theorem Inv.after_next_symbol {s : State} (h : Inv s) (hb : s.stat = .busy) (hr : ¬ moreSamples s) (hs : moreSymbols s)
    {sc : Scheme} (hc : schemeOf s.sch = some sc) : Inv (enteredSymbol sc s) := by
  obtain ⟨sc', htr⟩ := h.busy hb
  obtain rfl : sc = sc' := Option.some.inj (hc.symm.trans htr.scheme)
  have hsi : (enteredSymbol sc s).si.toNat = s.si.toNat + 1 := h.si_succ htr
  have htime : (enteredSymbol sc s).t.toNat = (s.si.toNat + 1) * s.nsps.toNat := h.time_of_last_sample htr hr
  have hgroup (j : Nat) : groupReg (enteredSymbol sc s) sc.bits j = groupReg s sc.bits j :=
    groupReg_congr (s := s) (u := enteredSymbol sc s) rfl (fun _ _ => rfl) _ _
  exact { h with
    siLe := by rw [hsi]; exact htr.siLt
    glenLe := lengthTag_le sc
    riLt := h.nspsPos
    riIdle := fun _ => rfl
    busy := fun _ => ⟨sc, { htr with
      siLt := by rw [hsi]; exact hs
      time := by rw [htime, hsi]; rfl
      tag := rfl
      group := by rw [hgroup, hsi]; rfl
      symbol := mapSymbol_tag hc _ }⟩
    done := fun hd => absurd (htr.notDone.symm.trans hd) nofun
    history := (h.history_more hb htr (.inr hs)).trans (congrArg some (openBeats_of_busy (s := enteredSymbol sc s) hb).symm) }

theorem Inv.after_last_beat {s : State} (h : Inv s) (hb : s.stat = .busy) (hr : ¬ moreSamples s) (hs : ¬ moreSymbols s) :
    Inv (finishTransmission s) := by
  obtain ⟨sc, htr⟩ := h.busy hb
  have hsi : (s.si + 1).toNat = s.nsym.toNat := by
    have hlt := htr.siLt
    rw [moreSymbols] at hs
    rw [h.si_succ htr]
    omega
  have htime : (s.t + 1).toNat = s.nsym.toNat * s.nsps.toNat := by
    rw [h.time_of_last_sample htr hr, ← h.si_succ htr, hsi]
  have hlast : beatLast s = true := (beatLast_iff_nothing_follows htr.siLt h.riLt).mpr ⟨hr, hs⟩
  exact { h with
    errorIff := iff_of_false nofun fun hc => hc (h.cause_of_not_error (by simp [hb]))
    siLe := hsi.le
    riLt := h.nspsPos
    riIdle := fun _ => rfl
    busy := nofun
    done := fun _ => ⟨rfl, BitVec.eq_of_toNat_eq hsi, s.nsps.toNat, h.nspsPos, Nat.le_of_lt_succ s.nsps.isLt, htime⟩
    history := by
      rw [finishTransmission_out, h.history_accept hb, if_pos hlast]
      rfl }

/-- The emit step keeps the invariants. -/
theorem Inv.after_emitStep {s t : State} (h : Inv s) (hb : s.stat = .busy) (he : emitStep s = .next t) : Inv t := by
  rcases emitStep_next_cases he with ⟨hr, rfl⟩ | ⟨hr, hs, sc, hc, rfl⟩ | ⟨hr, hs, rfl⟩
  · exact h.after_next_sample hb hr
  · exact h.after_next_symbol hb hr hs hc
  · exact h.after_last_beat hb hr hs

/-- In `BUSY` the scheme is known, so that the one fault of the model does not occur (R152). -/
theorem Transmitting.emitStep_next {s : State} {sc : Scheme} (h : Transmitting s sc) : ∃ t, emitStep s = .next t := by
  rcases emitStep_cases s with ⟨-, he⟩ | ⟨-, -, hc, -⟩ | ⟨-, -, sc, -, he⟩ | ⟨-, -, he⟩
  · exact ⟨_, he⟩
  · exact absurd (hc.symm.trans h.scheme) nofun
  · exact ⟨_, he⟩
  · exact ⟨_, he⟩

end Sys2Proof.Machine

open Sys2Proof Sys2Proof.Machine

/-- Settles O37: a reset edge establishes the invariants, and each other thing a step can do keeps them. -/
theorem stepKeepsTheInvariant : Obligations.StepKeepsTheInvariant := by
  intro s t hinv hstep
  rcases step_next_cases hstep with ⟨-, rfl⟩ | ⟨-, hb, w, ws, -, heff⟩ | ⟨-, -, rfl⟩ | ⟨hacc, hemit⟩
  · exact inv_resetBlock _
  · exact heff.inv (hinv.after_issue ws) hb
  · exact hinv.after_edge
  · exact hinv.after_edge.after_emitStep hacc.1 hemit

/-- Settles O38: the reset state is what a reset edge leaves. -/
theorem resetMeetsTheInvariant : Obligations.ResetMeetsTheInvariant := by
  unfold Obligations.ResetMeetsTheInvariant
  rw [← resetBlock_reset]
  exact inv_resetBlock State.reset

/-- Settles O39: only the emit step could stop, and in `BUSY` the invariants give it a scheme. -/
theorem stepNeverStopsUnderTheInvariant : Obligations.StepNeverStopsUnderTheInvariant := by
  intro s hinv
  rcases step_cases s with ⟨-, he⟩ | ⟨-, -, w, ws, -, he⟩ | ⟨-, -, -, he⟩ | ⟨hacc, he⟩ | ⟨-, -, -, he⟩
  · exact ⟨_, he⟩
  · rw [he]
    exact issueWord_next w _
  · exact ⟨_, he⟩
  · obtain ⟨sc, htr⟩ := hinv.after_edge.busy hacc.1
    rw [he]
    exact htr.emitStep_next
  · exact ⟨_, he⟩

namespace Sys2Proof.Machine

/-! ### The edge in `BUSY` and the edge without a word -/

/-- In `BUSY` an edge asks only for `rst` and `out_ready` (R47, R240). -/
theorem clockEdge_of_busy {s : State} (hb : s.stat = .busy) (e : EdgeInput) :
    clockEdge e s = if e.rst then .next (resetBlock s) else if e.outReady then emitStep s else .next s := by
  have hready : ¬ cmdReady s = true := by simp [hb]
  rw [clockEdge, if_neg hready]

/-- A step under a scripted edge is that edge on the state with the rest of the script. -/
theorem step_scripted (s : State) (e : EdgeInput) (es : List EdgeInput) :
    step { s with edges := e :: es } = clockEdge e { s with edges := es } := rfl

/-- Outside `BUSY` an edge without a word only passes (R221). -/
theorem step_of_silent {s : State} (hb : s.stat ≠ .busy) (hr : (edgeNow s).rst = false)
    (hn : (edgeNow s).cmdValid = false ∨ s.cmds = []) : step s = .next (dropEdge s) := by
  rcases step_cases s with ⟨h, -⟩ | ⟨-, -, w, ws, ho, -⟩ | ⟨-, -, -, he⟩ | ⟨hacc, -⟩ | ⟨-, h, -⟩
  · simp [hr] at h
  · exact absurd ho (not_offers_of_silent hn w ws)
  · exact he
  · exact absurd hacc.1 hb
  · exact absurd h hb

/-- An edge that passes leaves the block as it is. -/
theorem step_of_edgePasses {s : State} (hr : (edgeNow s).rst = false) (hp : EdgePasses s) : step s = .next (dropEdge s) := by
  rcases hp with ⟨hb, hn⟩ | ⟨hb, ho⟩
  · exact step_of_silent hb hr hn
  · exact step_of_stall hb hr ho

/-- With no script left the edges never run out. -/
theorem dropEdge_of_unscripted {s : State} (h : s.edges = []) : dropEdge s = s := by
  rw [dropEdge, h, List.tail_nil, ← h]

/-- A step that changes nothing can be repeated for ever. -/
theorem run_of_step_self {s : State} (h : step s = .next s) (n : Nat) : Sys2Proof.core.run n s = .next s := by
  induction n with
  | zero => rfl
  | succ n ih => rw [run_succ_next h, ih]

/-! ### Frames of the emit step -/

/-- An accepted beat touches none of the input fields. -/
theorem emitStep_keeps_host {s t : State} (h : emitStep s = .next t) :
    t.cmds = s.cmds ∧ t.edges = s.edges ∧ t.after = s.after := by
  rcases emitStep_next_cases h with ⟨-, rfl⟩ | ⟨-, -, sc, -, rfl⟩ | ⟨-, -, rfl⟩
  · exact ⟨rfl, rfl, rfl⟩
  · exact ⟨rfl, rfl, rfl⟩
  · exact ⟨rfl, rfl, rfl⟩

/-- Every emit step appends the current beat and nothing else (R152). -/
theorem emitStep_out {s t : State} (h : emitStep s = .next t) : t.out = s.out ++ [currentBeat s] := by
  rcases emitStep_next_cases h with ⟨-, rfl⟩ | ⟨-, -, sc, -, rfl⟩ | ⟨-, -, rfl⟩
  · rfl
  · rfl
  · rfl

/-- The emit step raises no error (R152). -/
theorem emitStep_stat_ne_error {s t : State} (hb : s.stat = .busy) (h : emitStep s = .next t) : t.stat ≠ .error := by
  rcases emitStep_next_cases h with ⟨-, rfl⟩ | ⟨-, -, sc, -, rfl⟩ | ⟨-, -, rfl⟩
  · simp [nextSample, hb]
  · simp [enteredSymbol, hb]
  · simp

/-! ### Frames of an issued word -/

/-- No command appends a beat. -/
theorem IssueEffect.out_eq {w : Word} {s t : State} (h : IssueEffect w s t) : t.out = s.out := by
  cases h <;> rfl

/-- No command touches what the environment drives. -/
theorem IssueEffect.keeps_environment {w : Word} {s t : State} (h : IssueEffect w s t) :
    t.edges = s.edges ∧ t.after = s.after := by
  cases h <;> exact ⟨rfl, rfl⟩

/-- A word that leads from `IDLE` to `ERROR` is a trap with a cause (R206). -/
theorem IssueEffect.eq_trap {w : Word} {s t : State} (h : IssueEffect w s t) (hi : s.stat = .idle) (ht : t.stat = .error) :
    ∃ r : Trap, r.cause ≠ .noError ∧ t = trap r s := by
  cases h with
  | cleared hw => exact absurd ht nofun
  | discarded he hw => simp [hi] at he
  | nop _ hw => simp [hi] at ht
  | setsch _ c hw => simp [hi] at ht
  | setn _ n hw => simp [hi] at ht
  | badChar _ c hw hc => exact ⟨_, by simp, rfl⟩
  | overflow _ c d hw hc hfull => exact ⟨_, by simp, rfl⟩
  | appended _ c d hw hc hroom => simp [hi] at ht
  | runRaised _ r hw hr => exact ⟨r, (errorRecord_of_runChecked_error hr).1, rfl⟩
  | runStarted _ sc hw hv => exact absurd ht nofun
  | illegal _ hw => exact ⟨_, by simp, rfl⟩

end Sys2Proof.Machine

open Sys2Proof Sys2Proof.Machine

/-- Settles O8: an offered word is issued, and a word that decodes to a command is executed as it. -/
theorem stepExecutesTheIssuedCommand : Obligations.StepExecutesTheIssuedCommand := by
  intro s w ws i ho hb hw
  rw [step_of_offers ho hb, issueWord_command hw]

/-- Settles O11: in `BUSY` no edge reads `cmd_valid`, and neither a reset nor the emit step touches the host's words. -/
theorem offeredWordsWaitWhileBusy : Obligations.OfferedWordsWaitWhileBusy := by
  constructor
  · intro s t hb hstep
    rcases step_next_cases hstep with ⟨-, rfl⟩ | ⟨-, hn, -⟩ | ⟨-, -, rfl⟩ | ⟨-, hemit⟩
    · rfl
    · exact absurd hb hn
    · rfl
    · exact (emitStep_keeps_host hemit).1
  · intro s e es v hb
    have hb' : ({ s with edges := es } : State).stat = .busy := hb
    rw [step_scripted, step_scripted, clockEdge_of_busy hb', clockEdge_of_busy hb']

/-- Settles O12: every command is guarded by `whenIdle` or `whenReady`, and both wait in `BUSY`. -/
theorem commandsWaitInBusy : Obligations.CommandsWaitInBusy := by
  intro i s hb
  have hidle (f : State → State) : whenIdle f s = s := whenIdle_of_not_idle (by simp [hb]) f
  have hready (f : State → State) : whenReady f s = s := whenReady_busy hb f
  cases i with
  | nop => exact congrArg _ (hready _)
  | clr => exact congrArg _ (hready _)
  | setsch c => exact congrArg _ (hidle _)
  | setn n => exact congrArg _ (hidle _)
  | push c => exact congrArg _ (hidle _)
  | run => exact congrArg _ (hidle _)

/-- Settles O13. -/
theorem blockWaitsWithoutACommand : Obligations.BlockWaitsWithoutACommand := fun _ hb hr hn => step_of_silent hb hr hn

/-- Settles O20: of everything the checks of `RUN` can raise none is `InvalidGroupLengthError`, since the grouper's own tag
passes the mapper's check. -/
theorem runNeverRaisesGroupLength : Obligations.RunNeverRaisesGroupLength := by
  intro s r hr
  rcases runChecked_cases s with ⟨-, he⟩ | ⟨_, -, -, he⟩ | ⟨_, -, -, -, he⟩ | ⟨_, -, he⟩ <;> rw [he] at hr <;> cases hr
  · simp
  · simp
  · simp

/-- Settles O23. -/
theorem handshakePinsFollowState : Obligations.HandshakePinsFollowState := by
  intro s
  refine ⟨cmdReady_eq_true_iff s, outValid_eq_true_iff s, fun hv => outPort_of_not_busy ?_⟩
  rw [ne_eq, ← outValid_eq_true_iff, hv]
  simp

/-- Settles O24: the port is a function of registers that a passing edge leaves as they are. -/
theorem stalledSinkHoldsTheBeat : Obligations.StalledSinkHoldsTheBeat := fun s hb hr ho =>
  ⟨dropEdge s, step_of_stall hb hr ho, rfl, rfl⟩

/-- Settles O25: with no script left the stalled step answers the state itself. -/
theorem sinkThatNeverAcceptsHoldsTheBlock : Obligations.SinkThatNeverAcceptsHoldsTheBlock := by
  intro s n hb hedges hr ho
  have hnow : edgeNow s = s.after := by rw [edgeNow, hedges, List.headD_nil]
  have hstep := step_of_stall hb (hnow ▸ hr) (hnow ▸ ho)
  rw [dropEdge_of_unscripted hedges] at hstep
  exact run_of_step_self hstep n

/-- Settles O43: only the emit step appends, and it appends the beat on the port. -/
theorem outputHistoryIsAppendOnly : Obligations.OutputHistoryIsAppendOnly := by
  intro s t hr hstep
  rcases step_next_cases hstep with ⟨h, -⟩ | ⟨-, hb, w, ws, -, heff⟩ | ⟨-, hp, rfl⟩ | ⟨hacc, hemit⟩
  · simp [hr] at h
  · exact ⟨fun hacc => absurd hacc.1 hb, fun _ => heff.out_eq⟩
  · exact ⟨fun hacc => absurd hacc hp.not_beatAccepted, fun _ => rfl⟩
  · refine ⟨fun _ => ?_, fun hn => absurd hacc hn⟩
    rw [outPort_of_busy hacc.1]
    exact emitStep_out (s := dropEdge s) hemit

/-- Settles O44: neither a reset, a passing edge nor an accepted beat enters `ERROR`, and a word that does is a trap. -/
theorem trapWritesOnlyTheErrorRegisters : Obligations.TrapWritesOnlyTheErrorRegisters := by
  intro s t hs hstep ht
  rcases step_next_cases hstep with ⟨-, rfl⟩ | ⟨-, hb, w, ws, ho, heff⟩ | ⟨-, -, rfl⟩ | ⟨hacc, hemit⟩
  · exact absurd ht nofun
  · have hi : s.stat = .idle := by cases hstat : s.stat <;> simp_all
    obtain ⟨r, hr, rfl⟩ := heff.eq_trap hi ht
    exact ⟨hi, hr, w, ws, ho, rfl⟩
  · exact absurd ht hs
  · exact absurd ht (emitStep_stat_ne_error (s := dropEdge s) hacc.1 hemit)

namespace Sys2Proof.Machine

/-! ### What a step cannot see -/

/-- `s` with another buffer and another environment. -/
def withUnseen (m : Memory) (es : List EdgeInput) (a : EdgeInput) (s : State) : State :=
  { s with buf := m, edges := es, after := a }

theorem untimed_eq_withUnseen (s : State) : untimed s = withUnseen s.buf [] .live s := rfl

/-- The buffer `m` agrees with that of `s` below `LEN` (R75). -/
def SameCells (m : Memory) (s : State) : Prop := ∀ a, a < s.len.toNat → m.read a = s.buf.read a

theorem sameCells_self (s : State) : SameCells s.buf s := fun _ _ => rfl

theorem agreeBelowLen_iff {s u : State} :
    AgreeBelowLen s u ↔ ∃ m, u = withUnseen m s.edges s.after s ∧ SameCells m s := by
  constructor
  · exact fun h => ⟨u.buf, h.rest, h.cells⟩
  · rintro ⟨m, rfl, hm⟩
    exact ⟨rfl, hm⟩

section
variable {m : Memory} {s t : State} (es : List EdgeInput) (a : EdgeInput)

theorem groupReg_withUnseen (hm : SameCells m s) (k j : Nat) : groupReg (withUnseen m es a s) k j = groupReg s k j :=
  groupReg_congr (s := s) (u := withUnseen m es a s) rfl hm k j

/-- A bit appended to both buffers extends the cells on which they agree. -/
theorem SameCells.append (hm : SameCells m s) (hroom : s.len.toNat < Config.maxBits) (d : Bit) :
    SameCells (m.write (pushAddr s) d) (appendBit d s) := by
  intro i hi
  rw [appendBit_buf]
  by_cases heq : i = pushAddr s
  · rw [heq, memory_read_write_same, memory_read_write_same]
  · rw [memory_read_write_other m d heq, memory_read_write_other s.buf d heq]
    have hlen : i < s.len.toNat + 1 := len_succ_toNat hroom ▸ hi
    rw [pushAddr] at heq
    exact hm i (by omega)

/-- With a scheme selected the outcome of `RUN` is that of `check_len`: the mapper never raises under the grouper's own tag. -/
theorem runChecked_eq_checkLen {sc : Scheme} (hc : schemeOf s.sch = some sc) :
    runChecked s = (checkLen s.len.toNat sc.bits).map fun N => started sc N s := by
  rw [runChecked, kOf_of_scheme hc]
  cases hlen : checkLen s.len.toNat sc.bits with
  | error r => simp [hlen, Except.map]
  | ok N => simp [hlen, Except.map, startTransmission, validateGroups_ok hc, loadSymbol_ok hc, started]

theorem runChecked_of_no_scheme (hc : schemeOf s.sch = none) :
    runChecked s = .error ⟨.unknownScheme, .noSub, zext16 s.sch⟩ := by
  simp [runChecked, kOf_eq_none.mpr hc]

/-- The checks of `RUN` read `SCH` and `LEN` alone. -/
theorem runChecked_error_withUnseen {r : Trap} (h : runChecked s = .error r) :
    runChecked (withUnseen m es a s) = .error r := by
  cases hc : schemeOf s.sch with
  | none =>
    rw [runChecked_of_no_scheme hc] at h
    rwa [runChecked_of_no_scheme (s := withUnseen m es a s) hc]
  | some sc =>
    rw [runChecked_eq_checkLen hc] at h
    rw [runChecked_eq_checkLen (s := withUnseen m es a s) hc, show (withUnseen m es a s).len = s.len from rfl]
    cases hlen : checkLen s.len.toNat sc.bits with
    | error r' =>
      rw [hlen] at h
      exact h
    | ok N =>
      rw [hlen] at h
      cases h

theorem started_withUnseen (hm : SameCells m s) (sc : Scheme) (N : Nat) :
    started sc N (withUnseen m es a s) = withUnseen m es a (started sc N s) := by
  simp only [started, withSymbol, groupReg_withUnseen es a hm]
  rfl

/-- A command does to what it sees the same in both states, and it does the same to both buffers. -/
theorem IssueEffect.withUnseen {w : Word} (h : IssueEffect w s t) (hm : SameCells m s) :
    ∃ m', IssueEffect w (withUnseen m es a s) (withUnseen m' es a t) ∧ SameCells m' t ∧ (m = s.buf → m' = t.buf) := by
  cases h with
  | cleared hw => exact ⟨m, .cleared hw, nofun, id⟩
  | discarded he hw => exact ⟨m, .discarded he hw, hm, id⟩
  | nop hi hw => exact ⟨m, .nop hi hw, hm, id⟩
  | setsch hi c hw => exact ⟨m, .setsch (s := withUnseen m es a s) hi c hw, hm, id⟩
  | setn hi n hw => exact ⟨m, .setn (s := withUnseen m es a s) hi n hw, hm, id⟩
  | badChar hi c hw hc => exact ⟨m, .badChar (s := withUnseen m es a s) hi c hw hc, hm, id⟩
  | overflow hi c d hw hc hfull =>
    exact ⟨m, .overflow (s := withUnseen m es a s) hi c d hw hc hfull, hm, id⟩
  | appended hi c d hw hc hroom =>
    exact ⟨m.write (pushAddr s) d, .appended (s := withUnseen m es a s) hi c d hw hc hroom, hm.append hroom d,
      fun h => by rw [h]; rfl⟩
  | runRaised hi r hw hr => exact ⟨m, .runRaised (s := withUnseen m es a s) hi r hw (runChecked_error_withUnseen es a hr), hm, id⟩
  | runStarted hi sc hw hv =>
    refine ⟨m, ?_, hm, id⟩
    rw [← started_withUnseen es a hm]
    exact .runStarted (s := withUnseen m es a s) hi sc hw hv
  | illegal hi hw => exact ⟨m, .illegal (s := withUnseen m es a s) hi hw, hm, id⟩

theorem enteredSymbol_withUnseen (hm : SameCells m s) (sc : Scheme) :
    enteredSymbol sc (withUnseen m es a s) = withUnseen m es a (enteredSymbol sc s) := by
  have hgroup := groupReg_withUnseen es a hm sc.bits (s.si.toNat + 1)
  simp only [enteredSymbol]
  rw [show (withUnseen m es a s).si = s.si from rfl, hgroup]
  rfl

/-- So does the emit step, which leaves the buffer as it is. -/
theorem emitStep_withUnseen (h : emitStep s = .next t) (hm : SameCells m s) :
    emitStep (withUnseen m es a s) = .next (withUnseen m es a t) := by
  rcases emitStep_next_cases h with ⟨hr, rfl⟩ | ⟨hr, hs, sc, hc, rfl⟩ | ⟨hr, hs, rfl⟩
  · exact emitStep_of_moreSamples hr
  · rw [← enteredSymbol_withUnseen es a hm]
    exact emitStep_of_moreSymbols hc hr hs
  · exact emitStep_of_nothing_follows hr hs

end

/-- An issued word has one effect only. -/
theorem IssueEffect.issueWord_eq {w : Word} {s t : State} (h : IssueEffect w s t) (hb : s.stat ≠ .busy) :
    issueWord w s = .next t := by
  cases h with
  | cleared hw => rw [issueWord_command hw, exec_clr hb]
  | discarded he hw => exact issueWord_in_error he hw
  | nop hi hw => rw [issueWord_command hw, exec_nop hb]
  | setsch hi c hw => rw [issueWord_command hw, exec_setsch_idle hi]
  | setn hi n hw => rw [issueWord_command hw, exec_setn_idle hi]
  | badChar hi c hw hc => rw [issueWord_command hw, exec_push_idle hi, pushIdle_of_not_digit hc]
  | overflow hi c d hw hc hfull => rw [issueWord_command hw, exec_push_idle hi, pushIdle_of_full hc hfull]
  | appended hi c d hw hc hroom => rw [issueWord_command hw, exec_push_idle hi, pushIdle_of_room hc hroom]
  | runRaised hi r hw hr => rw [issueWord_command hw, exec_run_idle hi, runIdle, hr]
  | runStarted hi sc hw hv => rw [issueWord_command hw, exec_run_idle hi, runIdle_valid hv]
  | illegal hi hw => rw [issueWord_illegal hw, illegalWord, whenIdle_idle hi]

/-- A step from an offered word with a known effect. -/
theorem step_of_effect {s t : State} {w : Word} {ws : List Word} (ho : Offers s w ws) (hb : s.stat ≠ .busy)
    (h : IssueEffect w (issued s ws) t) : step s = .next t := by
  rw [step_of_offers ho hb, h.issueWord_eq hb]

/-! ### Timing -/

/-- An edge without reset either does to the untimed block what it does to the timed one, or leaves the block as it is. -/
theorem step_untimed {s t : State} (hr : (edgeNow s).rst = false) (hstep : step s = .next t) :
    t.edges = s.edges.tail ∧ (untimed t = untimed s ∨ step (untimed s) = .next (untimed t)) := by
  rcases step_next_cases hstep with ⟨h, -⟩ | ⟨-, hb, w, ws, ho, heff⟩ | ⟨-, -, rfl⟩ | ⟨hacc, hemit⟩
  · simp [hr] at h
  · obtain ⟨m, heff', -, hm⟩ := heff.withUnseen [] .live (sameCells_self _)
    obtain rfl : m = t.buf := hm rfl
    obtain ⟨hedges, -⟩ := heff.keeps_environment
    obtain ⟨-, -, hcmds⟩ := ho
    have ho' : Offers (untimed s) w ws := ⟨rfl, rfl, hcmds⟩
    exact ⟨hedges, .inr (step_of_effect ho' hb heff')⟩
  · exact ⟨rfl, .inl rfl⟩
  · obtain ⟨hbuf, -⟩ := emitStep_keeps_inputs hemit
    obtain ⟨-, hedges, -⟩ := emitStep_keeps_host hemit
    have hemit' := emitStep_withUnseen [] .live hemit (sameCells_self _)
    rw [← hbuf] at hemit'
    refine ⟨hedges, .inr ?_⟩
    rw [step_of_beatAccepted (s := untimed s) ⟨hacc.1, rfl, rfl⟩, untimed_eq_withUnseen t, ← hemit', hbuf]
    rfl

/-- Along a script without reset the untimed machine keeps up in no more steps. -/
theorem run_untimed {n : Nat} {s t : State} (hlen : s.edges.length = n) (hr : ∀ e ∈ s.edges, e.rst = false)
    (hrun : Sys2Proof.core.run n s = .next t) :
    ∃ m, m ≤ n ∧ Sys2Proof.core.run m (untimed s) = .next (untimed t) := by
  induction n generalizing s with
  | zero =>
    obtain rfl : s = t := Host.Outcome.next.inj hrun
    exact ⟨0, le_rfl, rfl⟩
  | succ n ih =>
    obtain ⟨u, hstep, hrun'⟩ := run_succ_inv hrun
    obtain ⟨e, es, hedges⟩ := List.exists_cons_of_length_eq_add_one hlen
    have hnow : (edgeNow s).rst = false := by
      rw [edgeNow, hedges, List.headD_cons]
      exact hr e (by simp [hedges])
    obtain ⟨hu, hmove⟩ := step_untimed hnow hstep
    rw [hedges, List.tail_cons] at hu
    obtain ⟨m, hm, hrunm⟩ := ih (s := u) (by simpa [hedges, hu] using hlen)
      (fun x hx => hr x (by rw [hedges]; exact List.mem_cons_of_mem _ (hu ▸ hx))) hrun'
    rcases hmove with hwait | hmove
    · exact ⟨m, by omega, by rw [← hwait]; exact hrunm⟩
    · exact ⟨m + 1, by omega, by rw [run_succ_next hmove]; exact hrunm⟩

end Sys2Proof.Machine

open Sys2Proof Sys2Proof.Machine

/-- Settles O48: the script is the state's own, and the untimed machine keeps up along it. -/
theorem inputTimingOnlyDelays : Obligations.InputTimingOnlyDelays := by
  intro es s t hr hrun
  exact run_untimed (s := { s with edges := es }) rfl hr hrun

/-- Settles O49: what a step does to the registers is read from cells below `LEN` alone, and a bit is appended to both buffers. -/
theorem cellsAboveLenNeverMatter : Obligations.CellsAboveLenNeverMatter := by
  intro s u t hagree hstep
  obtain ⟨m, rfl, hm⟩ := agreeBelowLen_iff.mp hagree
  rcases step_next_cases hstep with ⟨hr, rfl⟩ | ⟨-, hb, w, ws, ho, heff⟩ | ⟨hr, hp, rfl⟩ | ⟨hacc, hemit⟩
  · exact ⟨_, step_of_rst hr, rfl, fun _ _ => rfl⟩
  · obtain ⟨m', heff', hm', -⟩ := heff.withUnseen s.edges.tail s.after hm
    obtain ⟨hedges, hafter⟩ := heff.keeps_environment
    refine ⟨_, step_of_effect ho hb heff', agreeBelowLen_iff.mpr ⟨m', ?_, hm'⟩⟩
    rw [hedges, hafter]
    rfl
  · exact ⟨_, step_of_edgePasses hr hp, rfl, hm⟩
  · have hemit' := emitStep_withUnseen s.edges.tail s.after hemit hm
    obtain ⟨-, hedges, hafter⟩ := emitStep_keeps_host hemit
    obtain ⟨hbuf, hlen, -, -⟩ := emitStep_keeps_inputs hemit
    refine ⟨_, (step_of_beatAccepted (s := withUnseen m s.edges s.after s) hacc).trans hemit',
      agreeBelowLen_iff.mpr ⟨m, ?_, ?_⟩⟩
    · rw [hedges, hafter]
      rfl
    · intro i hi
      rw [hlen] at hi
      rw [hbuf]
      exact hm i hi

namespace Sys2Proof

/-! ### Words and commands -/

/-- A word put together from its fields, as a number (R81). -/
theorem formatC_toNat (op : BitVec 4) (imm : BitVec 8) : (formatC op imm).toNat = 0x1000 * op.toNat + imm.toNat := by
  rw [toNat_of_opField (rzField_formatC op imm) (opField_formatC op imm), ← immField_toNat, immField_formatC]

/-- A word whose reserved field is 0 is put together from the other two (R81). -/
theorem formatC_fields {w : Word} {op : BitVec 4} {imm : BitVec 8} (hz : rzField w = 0) (ho : opField w = op)
    (hi : immField w = imm) : formatC op imm = w := by
  apply BitVec.eq_of_toNat_eq
  rw [formatC_toNat, ← hi, immField_toNat, ← toNat_of_opField hz ho]

/-- The operand byte of `SETSCH` is the scheme code under five zeros (R83). -/
theorem immField_of_schemePadding {w : Word} (h : w.extractLsb' 3 5 = 0) : immField w = 0#5 ++ w.extractLsb' 0 3 := by
  have hpad := (schemePadding_eq_zero_iff w).mp h
  apply BitVec.eq_of_toNat_eq
  rw [BitVec.toNat_append, BitVec.extractLsb'_toNat, immField_toNat]
  simp
  omega

/-! ### The numbers of the encodings -/

theorem encode_nop_toNat : (encode .nop).toNat = 0 := formatC_toNat 0 0

theorem encode_clr_toNat : (encode .clr).toNat = 0x1000 := formatC_toNat 1 0

theorem encode_run_toNat : (encode .run).toNat = 0x5000 := formatC_toNat 5 0

theorem zero_append_toNat {n : Nat} (m : Nat) (v : BitVec n) : (0#m ++ v).toNat = v.toNat := by
  simp [BitVec.toNat_append]

theorem encode_setsch_toNat (c : SchemeCode) : (encode (.setsch c)).toNat = 0x2000 + c.toNat := by
  rw [← zero_append_toNat 5 c]
  exact formatC_toNat 2 (0#5 ++ c)

theorem encode_setn_toNat (n : BitVec 8) : (encode (.setn n)).toNat = 0x3000 + n.toNat := formatC_toNat 3 n

theorem encode_push_toNat (c : CharCode) : (encode (.push c)).toNat = 0x4000 + c.toNat := formatC_toNat 4 c

theorem decode_encode (i : Instr) (h : i.wellFormed = true) : decode (encode i) = .command i := by
  cases i with
  | nop => exact decode_nop_word encode_nop_toNat
  | clr => exact decode_clr_word encode_clr_toNat
  | setsch c => simpa using decode_setsch_word (encode_setsch_toNat c) c.isLt
  | setn n =>
    have hne : n ≠ 0 := by simpa [Instr.wellFormed] using h
    have hpos : 0 < n.toNat := by bv_omega
    simpa using decode_setn_word (encode_setn_toNat n) hpos n.isLt
  | push c => simpa using decode_push_word (encode_push_toNat c) c.isLt
  | run => exact decode_run_word encode_run_toNat

/-- The decoder accepts a word only as the encoding of the command it answers. -/
theorem encode_decode {w : Word} {i : Instr} (h : decode w = .command i) : encode i = w := by
  rcases decode_cases w with ⟨e, hz, ho, hi⟩ | ⟨e, hz, ho, hi⟩ | ⟨e, hz, ho, hpad⟩ | ⟨e, hz, ho, -⟩ | ⟨e, hz, ho⟩ |
    ⟨e, hz, ho, hi⟩ | ⟨r, e⟩ <;> rw [e] at h <;> cases h
  · exact formatC_fields hz ho hi
  · exact formatC_fields hz ho hi
  · exact formatC_fields hz ho (immField_of_schemePadding hpad)
  · exact formatC_fields hz ho rfl
  · exact formatC_fields hz ho rfl
  · exact formatC_fields hz ho hi

/-! ### How many words are legal -/

/-- Inside each range of R94 the decoder finds the command of the range. -/
theorem exists_decode_of_isLegalNumber {w : Word} (h : IsLegalNumber w.toNat) : ∃ i, decode w = .command i := by
  rcases h with h | h | ⟨hlo, hhi⟩ | ⟨hlo, hhi⟩ | ⟨hlo, hhi⟩ | h
  · exact ⟨_, decode_nop_word h⟩
  · exact ⟨_, decode_clr_word h⟩
  · exact ⟨_, decode_setsch_word (c := w.toNat - 0x2000) (by omega) (by omega)⟩
  · exact ⟨_, decode_setn_word (n := w.toNat - 0x3000) (by omega) (by omega) (by omega)⟩
  · exact ⟨_, decode_push_word (c := w.toNat - 0x4000) (by omega) (by omega)⟩
  · exact ⟨_, decode_run_word h⟩

theorem decode_isSome_iff (w : Word) : (decode w).instr?.isSome = true ↔ IsLegalNumber w.toNat := by
  constructor
  · intro h
    by_contra hn
    rw [Machine.decode_instr?_of_not_isLegalNumber hn] at h
    exact absurd h nofun
  · intro h
    obtain ⟨i, hi⟩ := exists_decode_of_isLegalNumber h
    rw [hi]
    rfl

/-- The numbers of the legal words in rising order: `NOP`, `CLR`, the words of `SETSCH`, `SETN` and `PUSH`, `RUN`. -/
def legalNumbers : List Nat :=
  [0] ++ ([0x1000] ++ (List.range' 0x2000 8 ++ (List.range' 0x3001 255 ++ (List.range' 0x4000 256 ++ [0x5000]))))

theorem mem_legalNumbers (n : Nat) : n ∈ legalNumbers ↔ IsLegalNumber n := by
  simp only [legalNumbers, IsLegalNumber, List.mem_append, List.mem_singleton, List.mem_range'_1]
  omega

theorem legalNumbers_nodup : legalNumbers.Nodup := by
  have hrange (n k : Nat) : (List.range' n k).Nodup := List.nodup_range'
  simp only [legalNumbers, List.nodup_append, hrange, List.nodup_singleton, List.mem_append, List.mem_singleton,
    List.mem_range'_1, true_and]
  and_intros <;> intros <;> omega

theorem legalNumbers_length : legalNumbers.length = 522 := by
  simp [legalNumbers]

end Sys2Proof

open Sys2Proof

/-- Settles O6. -/
theorem decodeOfEncodeIsTheCommand : Obligations.DecodeOfEncodeIsTheCommand := decode_encode

/-- Settles O7. -/
theorem encodeOfDecodedIsTheWord : Obligations.EncodeOfDecodedIsTheWord := fun _ _ h =>
  ⟨decode_wellFormed h, encode_decode h⟩

/-- Settles O5: the legal words among all words are those of `legalNumbers`, in whatever order, and neither list repeats one. -/
theorem exactlyFiveHundredTwentyTwoLegalWords : Obligations.ExactlyFiveHundredTwentyTwoLegalWords := by
  unfold Obligations.ExactlyFiveHundredTwentyTwoLegalWords
  rw [← legalNumbers_length]
  apply List.Perm.length_eq
  rw [List.perm_ext_iff_of_nodup (List.nodup_range.filter _) legalNumbers_nodup]
  intro n
  rw [mem_legalNumbers, List.mem_filter, List.mem_range, decode_isSome_iff, BitVec.toNat_ofNat]
  constructor
  · rintro ⟨hlt, h⟩
    rwa [Nat.mod_eq_of_lt hlt] at h
  · intro h
    have hlt : n < 2 ^ 16 := by
      unfold IsLegalNumber at h
      omega
    exact ⟨hlt, by rwa [Nat.mod_eq_of_lt hlt]⟩

/-- Settles O3: the six legal words by their numbers, each illegal one by its own field. -/
theorem sampleWordsDecodeAsEncoded : Obligations.SampleWordsDecodeAsEncoded :=
  ⟨decode_nop_word rfl, decode_clr_word rfl, decode_setsch_word (c := 4) rfl (by decide),
    decode_setn_word (n := 255) rfl (by decide) (by decide), decode_push_word (c := 0x31) rfl (by decide), decode_run_word rfl,
    rfl, rfl, rfl, rfl⟩

namespace Sys2Proof.Machine

/-! ### The words of the assembler's lines -/

/-- A word given by its distance from the first word of its range. -/
theorem eq_offset_of_toNat {w : Word} {base n : Nat} (h : w.toNat = base + n) :
    w = BitVec.ofNat 16 base + BitVec.ofNat 16 n := by
  rw [← BitVec.ofNat_add, ← h, BitVec.ofNat_toNat, BitVec.setWidth_eq]

theorem encode_setsch_ofNat {n : Nat} (hn : n ≤ 7) : encode (.setsch (BitVec.ofNat 3 n)) = 0x2000 + BitVec.ofNat 16 n :=
  eq_offset_of_toNat (by rw [encode_setsch_toNat, BitVec.toNat_ofNat, Nat.mod_eq_of_lt (by omega)])

theorem encode_setn_ofNat {n : Nat} (hn : n ≤ 255) : encode (.setn (BitVec.ofNat 8 n)) = 0x3000 + BitVec.ofNat 16 n :=
  eq_offset_of_toNat (by rw [encode_setn_toNat, BitVec.toNat_ofNat, Nat.mod_eq_of_lt (by omega)])

theorem encode_push_ofNat {n : Nat} (hn : n ≤ 255) : encode (.push (BitVec.ofNat 8 n)) = 0x4000 + BitVec.ofNat 16 n :=
  eq_offset_of_toNat (by rw [encode_push_toNat, BitVec.toNat_ofNat, Nat.mod_eq_of_lt (by omega)])

theorem charCode_of_ascii {c : Char} (hc : c.toNat < 128) : charCode c = some (BitVec.ofNat 8 c.toNat) := if_pos hc

/-- The `PUSH` words of a bit string of ASCII characters (R93, R95). -/
def pushWords (str : List Char) : List Word := str.map fun c => 0x4000 + BitVec.ofNat 16 c.toNat

theorem asmSetn_of_range {n : Nat} (hpos : 1 ≤ n) (hn : n ≤ 255) : asmSetn n = some (0x3000 + BitVec.ofNat 16 n) := by
  rw [asmSetn, if_pos ⟨hpos, hn⟩, encode_setn_ofNat hn]

theorem asmSetn_of_not_range {n : Nat} (hn : n = 0 ∨ 255 < n) : asmSetn n = none := if_neg (by omega)

theorem asmBits_of_ascii {str : List Char} (h : ∀ c ∈ str, c.toNat < 128) : asmBits str = some (pushWords str) := by
  induction str with
  | nil => rfl
  | cons c cs ih =>
    have hc : c.toNat < 128 := h c List.mem_cons_self
    rw [asmBits, charCode_of_ascii hc, ih fun d hd => h d (List.mem_cons_of_mem _ hd)]
    simp only [pushWords, List.map_cons, encode_push_ofNat (show c.toNat ≤ 255 by omega)]

/-- A line of one word is accepted exactly as that word is. -/
theorem of_map_singleton_eq_some {o : Option Word} {w : Word} (h : (o.map fun w => [w]) = some [w]) : o = some w := by
  simpa using h

/-- The expansion of `SEND` (R93). -/
theorem asmSend_of_parts {sch : SchemeOperand} {n : Nat} {str : List Char} {ws wn : Word}
    (hs : assemble (.setsch sch) = some [ws]) (hn : assemble (.setn n) = some [wn]) (hstr : ∀ c ∈ str, c.toNat < 128) :
    asmSend sch n str = some ([0x1000, ws, wn] ++ pushWords str ++ [0x5000]) := by
  rw [asmSend, of_map_singleton_eq_some hs, of_map_singleton_eq_some hn, asmBits_of_ascii hstr]
  rfl

/-! ### Every line gives legal words -/

/-- A word that is a command. -/
def IsCommandWord (w : Word) : Prop := ∃ i, decode w = .command i

theorem isCommandWord_encode {i : Instr} (h : i.wellFormed = true) : IsCommandWord (encode i) := ⟨i, decode_encode i h⟩

theorem asmSetsch_isCommandWord {sch : SchemeOperand} {w : Word} (h : asmSetsch sch = some w) : IsCommandWord w := by
  obtain ⟨c, -, rfl⟩ := Option.map_eq_some_iff.mp h
  exact isCommandWord_encode rfl

theorem asmSetn_isCommandWord {n : Nat} {w : Word} (h : asmSetn n = some w) : IsCommandWord w := by
  rw [asmSetn] at h
  split at h
  · next hn =>
    obtain rfl := Option.some.inj h
    have hne : BitVec.ofNat 8 n ≠ 0 := by bv_omega
    exact isCommandWord_encode (by simpa [Instr.wellFormed] using hne)
  · cases h

theorem asmBits_isCommandWord {str : List Char} {ws : List Word} (h : asmBits str = some ws) : ∀ w ∈ ws, IsCommandWord w := by
  induction str generalizing ws with
  | nil =>
    obtain rfl := Option.some.inj h
    exact nofun
  | cons c cs ih =>
    rw [asmBits] at h
    split at h
    · next v vs _ hvs =>
      obtain rfl := Option.some.inj h
      exact List.forall_mem_cons.mpr ⟨isCommandWord_encode rfl, ih hvs⟩
    · cases h

theorem asmSend_isCommandWord {sch : SchemeOperand} {n : Nat} {str : List Char} {ws : List Word}
    (h : asmSend sch n str = some ws) : ∀ w ∈ ws, IsCommandWord w := by
  rw [asmSend] at h
  split at h
  · next ws' wn wb hs hn hb =>
    obtain rfl := Option.some.inj h
    simp only [List.forall_mem_cons, List.forall_mem_append]
    exact ⟨isCommandWord_encode rfl, asmSetsch_isCommandWord hs, asmSetn_isCommandWord hn, asmBits_isCommandWord hb,
      isCommandWord_encode rfl, nofun⟩
  · cases h

theorem forall_mem_of_line {i : Instr} (hi : i.wellFormed = true) {ws : List Word} (h : some [encode i] = some ws) :
    ∀ w ∈ ws, IsCommandWord w := by
  obtain rfl := Option.some.inj h
  exact List.forall_mem_singleton.mpr (isCommandWord_encode hi)

theorem forall_mem_of_map_singleton {α : Type} {P : Word → Prop} {f : α → Word} {o : Option α} {ws : List Word}
    (h : (o.map fun a => [f a]) = some ws) (hP : ∀ a, o = some a → P (f a)) : ∀ w ∈ ws, P w := by
  obtain ⟨a, ha, rfl⟩ := Option.map_eq_some_iff.mp h
  exact List.forall_mem_singleton.mpr (hP a ha)

theorem assemble_isCommandWord {l : AsmLine} {ws : List Word} (hl : ∀ n, l ≠ .word n) (h : assemble l = some ws) :
    ∀ w ∈ ws, IsCommandWord w := by
  cases l with
  | nop => exact forall_mem_of_line (i := .nop) rfl h
  | clr => exact forall_mem_of_line (i := .clr) rfl h
  | run => exact forall_mem_of_line (i := .run) rfl h
  | setsch s => exact forall_mem_of_map_singleton h fun _ => asmSetsch_isCommandWord
  | setn n => exact forall_mem_of_map_singleton h fun _ => asmSetn_isCommandWord
  | push c => exact forall_mem_of_map_singleton h fun _ _ => isCommandWord_encode rfl
  | word w => exact absurd rfl (hl w)
  | bits str => exact asmBits_isCommandWord h
  | send s n str => exact asmSend_isCommandWord h
  | sendargs s n args => exact asmSend_isCommandWord h

end Sys2Proof.Machine

open Sys2Proof Sys2Proof.Machine

/-- Settles O50: the fixed lines by their words, the lines with a number by the number of its encoding, the strings character by
character. -/
theorem assemblerEmitsLegalWords : Obligations.AssemblerEmitsLegalWords := by
  refine ⟨⟨rfl, rfl, rfl⟩, by decide, ?setsch, ?setn, ?rejected, ?quoted, ?number, ?word, ?bits, ?send, ?sendargs, ?legal⟩
  case setsch =>
    intro n hn
    rw [← encode_setsch_ofNat hn]
    simp [assemble, asmSetsch, schemeOperand, hn]
  case setn =>
    intro n hpos hn
    simp only [assemble, asmSetn_of_range hpos hn, Option.map_some]
  case rejected =>
    intro n hn
    simp only [assemble, asmSetn_of_not_range hn, Option.map_none]
  case quoted =>
    intro c hc
    rw [← encode_push_ofNat (show c.toNat ≤ 255 by omega)]
    simp only [assemble, charOperand, charCode_of_ascii hc, Option.map_some]
  case number =>
    intro n hn
    rw [← encode_push_ofNat hn]
    simp [assemble, charOperand, hn]
  case word => exact fun n hn => if_pos hn
  case bits => exact fun str hstr => asmBits_of_ascii hstr
  case send => exact fun sch n str ws wn hs hn hstr => asmSend_of_parts hs hn hstr
  case sendargs =>
    intro sch n args ws wn hs hn hargs
    have hflat : (args.flatMap fun str => str.map fun c => 0x4000 + BitVec.ofNat 16 c.toNat) = pushWords args.flatten := by
      rw [pushWords, List.map_flatten, List.flatMap_def]
    rw [hflat]
    refine asmSend_of_parts hs hn fun c hc => ?_
    obtain ⟨str, hstr, hmem⟩ := List.mem_flatten.mp hc
    exact hargs str hstr c hmem
  case legal => exact fun l ws => assemble_isCommandWord

namespace Sys2Proof.Machine

/-! ### The bits of a group -/

/-- The lowest address is the most significant bit (R61, R64). -/
theorem memRead_testBit (s : State) {a n j : Nat} (hj : j < n) :
    (memRead s a n).testBit (n - 1 - j) = (bufBit s (a + j)).getLsbD 0 := by
  induction n generalizing a j with
  | zero => omega
  | succ n ih =>
    have hlt := memRead_lt s (a + 1) n
    rw [memRead, mul_comm]
    cases j with
    | zero =>
      rw [Nat.testBit_two_pow_mul_add _ hlt, if_neg (by omega), show n + 1 - 1 - 0 - n = 0 by omega]
      rfl
    | succ j =>
      rw [Nat.testBit_two_pow_mul_add _ hlt, if_pos (by omega), show n + 1 - 1 - (j + 1) = n - 1 - j by omega,
        ih (by omega), show a + 1 + j = a + (j + 1) by omega]

theorem groupReg_getLsbD (s : State) (sc : Scheme) {i j : Nat} (hj : j < sc.bits) :
    (groupReg s sc.bits i).getLsbD (sc.bits - 1 - j) = (bufBit s (i * sc.bits + j)).getLsbD 0 := by
  have hk := (scheme_bits_bounds sc).2
  rw [groupReg, BitVec.getLsbD_ofNat, memRead_testBit s hj, decide_eq_true (show sc.bits - 1 - j < 4 by omega), Bool.true_and]

/-- A group of `k` bits fits in its `k` low bits (R103). -/
theorem groupReg_getLsbD_of_ge (s : State) {k j : Nat} (i : Nat) (hj : k ≤ j) : (groupReg s k i).getLsbD j = false := by
  have hlt : memRead s (i * k) k < 2 ^ j := (memRead_lt s _ _).trans_le (Nat.pow_le_pow_right (by decide) hj)
  rw [groupReg, BitVec.getLsbD_ofNat, Nat.testBit_lt_two_pow hlt, Bool.and_false]

/-! ### The nearest points -/

/-- A group that differs from `g` in one bit and whose point lies at the least distance from that of `g`: the sign bit of Q
flipped for 4-PSK and for the inner ring of 8-QAM, the ring bit for the outer ring, the magnitude bit of Q for 16-QAM. -/
def grayNeighbour (sc : Scheme) (g : BitVec 4) : BitVec 4 :=
  if sc = .qam8 ∧ g.getLsbD 0 = false then g ^^^ 2 else g ^^^ 1

/-- The neighbour is a group of the scheme and another one. -/
theorem grayNeighbour_valid {sc : Scheme} (hsc : sc = .psk4 ∨ sc = .qam8 ∨ sc = .qam16) {g : BitVec 4}
    (hg : g.toNat < 2 ^ sc.bits) :
    (grayNeighbour sc g).toNat < 2 ^ sc.bits ∧ grayNeighbour sc g ≠ g := by
  rcases hsc with rfl | rfl | rfl <;> revert g <;> decide

/-- Only groups that differ in one bit are as near as that neighbour. -/
theorem bitDistance_of_dist2_le {sc : Scheme} (hsc : sc = .psk4 ∨ sc = .qam8 ∨ sc = .qam16) {g h : BitVec 4}
    (hg : g.toNat < 2 ^ sc.bits) (hh : h.toNat < 2 ^ sc.bits) (hne : g ≠ h)
    (hle : dist2 (sc.point Config.levels g) (sc.point Config.levels h) ≤
      dist2 (sc.point Config.levels g) (sc.point Config.levels (grayNeighbour sc g))) : bitDistance g h = 1 := by
  rcases hsc with rfl | rfl | rfl <;> revert g h <;> decide +kernel

/-! ### The list of beats -/

section
variable {α : Type} {f : Nat → List α} {n : Nat}

theorem length_flatMap_range (hlen : ∀ j, (f j).length = n) (N : Nat) : ((List.range N).flatMap f).length = N * n := by
  simp [List.length_flatMap, hlen]

/-- In a row of blocks of length `n` the entry `r` of block `j` stands at `j * n + r`. -/
theorem getElem?_flatMap_range (hlen : ∀ j, (f j).length = n) {N j r : Nat} (hj : j < N) (hr : r < n) :
    ((List.range N).flatMap f)[j * n + r]? = (f j)[r]? := by
  induction N with
  | zero => omega
  | succ N ih =>
    rw [List.range_succ, List.flatMap_append]
    by_cases hjN : j < N
    · have hblock : j * n + n ≤ N * n := Nat.succ_mul j n ▸ Nat.mul_le_mul_right n hjN
      rw [List.getElem?_append_left (by rw [length_flatMap_range hlen]; omega), ih hjN]
    · obtain rfl : j = N := by omega
      rw [List.getElem?_append_right (by rw [length_flatMap_range hlen]; omega), length_flatMap_range hlen,
        Nat.add_sub_cancel_left, List.flatMap_singleton]

end

section
variable (sc : Scheme) (s : State) (n N : Nat)

/-- The `n` beats of symbol `j`. -/
def heldSymbol (j : Nat) : List Beat := (List.range n).map (signalBeat sc s n N j)

theorem signalBeats_eq_flatMap : signalBeats sc s n N = (List.range N).flatMap (heldSymbol sc s n N) := rfl

theorem heldSymbol_length (j : Nat) : (heldSymbol sc s n N j).length = n := by simp [heldSymbol]

/-- Only the first beat of a held symbol starts it (R153, R158). -/
theorem filter_sos_heldSymbol (hn : 0 < n) (j : Nat) :
    (heldSymbol sc s n N j).filter (fun b => b.sos) = [signalBeat sc s n N j 0] := by
  obtain ⟨m, rfl⟩ := Nat.exists_eq_add_one.mpr hn
  have hrest : ((List.range m).map Nat.succ).filter ((fun b => b.sos) ∘ signalBeat sc s (m + 1) N j) = [] := by
    simp [List.filter_eq_nil_iff, signalBeat]
  rw [heldSymbol, List.filter_map, List.range_succ_eq_map, List.filter_cons_of_pos (by simp [signalBeat]), hrest]
  rfl

theorem symbolList_signalBeats (hn : 0 < n) :
    symbolList (signalBeats sc s n N) = (List.range N).map fun j => sc.point Config.levels (groupReg s sc.bits j) := by
  rw [symbolList, signalBeats_eq_flatMap, List.filter_flatMap]
  simp only [filter_sos_heldSymbol sc s n N hn]
  rw [← List.map_eq_flatMap, List.map_map]
  rfl

end
end Sys2Proof.Machine

open Sys2Proof Sys2Proof.Machine

/-- Settles O31: the bits of `MemRead` in their order; a stored cell below `LEN` reads as its bit. -/
theorem groupBitsAreBufferCellsInOrder : Obligations.GroupBitsAreBufferCellsInOrder := by
  intro s sc i
  refine ⟨fun j hj => groupReg_getLsbD s sc hj, ?stored, fun j hj => groupReg_getLsbD_of_ge s i hj⟩
  case stored =>
    intro j b hj hlen hread
    rw [groupReg_getLsbD s sc hj, bufBit_of_read hlen hread]

/-- Settles O32: under the scheme's own length tag `map` is the table, and each printed row is its entry. -/
theorem mapReturnsThePrintedRows : Obligations.MapReturnsThePrintedRows := by
  have row (sc : Scheme) (g : BitVec 4) :
      (mapSymbol sc.code (lengthTag sc.bits) g).toOption = some (sc.point Config.levels g) := by
    rw [mapSymbol_tag (schemeOf_code sc)]
    rfl
  exact ⟨⟨row .ook 0, row .ook 1⟩, ⟨row .psk2 0, row .psk2 1⟩, ⟨row .psk4 0, row .psk4 1, row .psk4 2, row .psk4 3⟩,
    ⟨row .qam8 0, row .qam8 1, row .qam8 2, row .qam8 3, row .qam8 4, row .qam8 5, row .qam8 6, row .qam8 7⟩,
    ⟨row .qam16 0, row .qam16 1, row .qam16 2, row .qam16 3, row .qam16 4, row .qam16 5, row .qam16 6, row .qam16 7,
      row .qam16 8, row .qam16 9, row .qam16 10, row .qam16 11, row .qam16 12, row .qam16 13, row .qam16 14, row .qam16 15⟩⟩

/-- Settles O34. -/
theorem tablesAgreeWithFormulas : Obligations.TablesAgreeWithFormulas := point_eq_formula

/-- Settles O36: a nearest neighbour is at most as far as the neighbour of the Gray labelling, and so near are only groups that
differ in one bit. -/
theorem nearestNeighboursDifferInOneBit : Obligations.NearestNeighboursDifferInOneBit := by
  rintro sc g h hsc ⟨hg, hh, hne, hmin⟩
  obtain ⟨hvalid, hother⟩ := grayNeighbour_valid hsc hg
  exact bitDistance_of_dist2_le hsc hg hh hne (hmin _ hvalid hother)

/-- Settles O47: the list is a row of `N` held symbols of `n` beats each, and each of them starts once. -/
theorem signalHasOneHeldSymbolPerGroup : Obligations.SignalHasOneHeldSymbolPerGroup := by
  intro s sc n N hn
  have hlen : ∀ j, (heldSymbol sc s n N j).length = n := heldSymbol_length sc s n N
  refine ⟨length_flatMap_range hlen N, ?beats, symbolList_signalBeats sc s n N hn⟩
  case beats =>
    intro j r hj hr
    rw [signalBeats_eq_flatMap, getElem?_flatMap_range hlen hj hr]
    simp [heldSymbol, hr]
end
